-- ==== Sys2Proof/Word.lean ====
section
/-! DEFINITION. The word types of the machine: bytes, 16-bit words, 12-bit addresses and the 4-bit fields of an
opcode (00_scope.md R9; 30_encoding.md R70, R71). -/

namespace Sys2Proof

/-- A u8: a general register, a timer, a memory byte (R22, R29, R30, R50). -/
abbrev Byte := BitVec 8

/-- A u16: the opcode, I, PC and a return address (R25, R26, R31, R70). -/
abbrev Word := BitVec 16

/-- A u12: the operand field `nnn` (R71). -/
abbrev Addr12 := BitVec 12

/-- A u4: one nibble of an opcode (R70). -/
abbrev Nibble := BitVec 4

/-- A general register's index, 0x0..0xF (R22): the operand fields `x` and `y` (R71). -/
abbrev Reg := Fin 16

/-- A row count 0..15: the operand field `n` of Dxyn (R71). -/
abbrev RowCount := Fin 16

/-- VF, the register that several instructions also write as a flag (R23). -/
abbrev VF : Reg := 15

end Sys2Proof
end

