-- ==== Sys2Proof/Syntax.lean ====
section
/-! DEFINITION. The 35 instructions of 30_encoding.md R75, one constructor per row of spec/opcode_table.json, each with
the operand fields of R71. -/

namespace Sys2Proof

/-- The instruction set: "only the original 35-opcode instruction set is in scope" (R2). Every operand has exactly
the width of its field in the opcode (R71), so no term of this type has an operand that does not fit. -/
inductive Instr where
  /-- `00E0` CLS (R150). -/
  | cls
  /-- `00EE` RET (R100). -/
  | ret
  /-- `1nnn` JP nnn (R101). -/
  | jp (nnn : Addr12)
  /-- `2nnn` CALL nnn (R102). -/
  | call (nnn : Addr12)
  /-- `3xnn` SE Vx, nn (R104). -/
  | seImm (x : Reg) (nn : Byte)
  /-- `4xnn` SNE Vx, nn (R105). -/
  | sneImm (x : Reg) (nn : Byte)
  /-- `5xy0` SE Vx, Vy (R106). -/
  | seReg (x y : Reg)
  /-- `6xnn` LD Vx, nn (R120). -/
  | ldImm (x : Reg) (nn : Byte)
  /-- `7xnn` ADD Vx, nn (R121). -/
  | addImm (x : Reg) (nn : Byte)
  /-- `8xy0` LD Vx, Vy (R122). -/
  | ldReg (x y : Reg)
  /-- `8xy1` OR Vx, Vy (R123). -/
  | orReg (x y : Reg)
  /-- `8xy2` AND Vx, Vy (R124). -/
  | andReg (x y : Reg)
  /-- `8xy3` XOR Vx, Vy (R125). -/
  | xorReg (x y : Reg)
  /-- `8xy4` ADD Vx, Vy (R126). -/
  | addReg (x y : Reg)
  /-- `8xy5` SUB Vx, Vy (R127). -/
  | sub (x y : Reg)
  /-- `8xy6` SHR Vx, Vy (R128). -/
  | shr (x y : Reg)
  /-- `8xy7` SUBN Vx, Vy (R129). -/
  | subn (x y : Reg)
  /-- `8xyE` SHL Vx, Vy (R130). -/
  | shl (x y : Reg)
  /-- `9xy0` SNE Vx, Vy (R107). -/
  | sneReg (x y : Reg)
  /-- `Annn` LD I, nnn (R140). -/
  | ldI (nnn : Addr12)
  /-- `Bnnn` JP V0, nnn (R103). -/
  | jpV0 (nnn : Addr12)
  /-- `Cxnn` RND Vx, nn (R131). -/
  | rnd (x : Reg) (nn : Byte)
  /-- `Dxyn` DRW Vx, Vy, n (R151). -/
  | drw (x y : Reg) (n : RowCount)
  /-- `Ex9E` SKP Vx (R160). -/
  | skp (x : Reg)
  /-- `ExA1` SKNP Vx (R161). -/
  | sknp (x : Reg)
  /-- `Fx07` LD Vx, DT (R162). -/
  | ldVxDt (x : Reg)
  /-- `Fx0A` LD Vx, K (R163). -/
  | ldVxK (x : Reg)
  /-- `Fx15` LD DT, Vx (R164). -/
  | ldDtVx (x : Reg)
  /-- `Fx18` LD ST, Vx (R165). -/
  | ldStVx (x : Reg)
  /-- `Fx1E` ADD I, Vx (R141). -/
  | addI (x : Reg)
  /-- `Fx29` LD F, Vx (R142). -/
  | ldF (x : Reg)
  /-- `Fx33` LD B, Vx (R143). -/
  | ldB (x : Reg)
  /-- `Fx55` LD [I], Vx (R144). -/
  | storeRegs (x : Reg)
  /-- `Fx65` LD Vx, [I] (R145). -/
  | loadRegs (x : Reg)
  /-- `0000` NOP (R108). -/
  | nop
deriving DecidableEq, Repr

end Sys2Proof
end

