-- ==== Sys2Proof/Decode.lean ====
section
/-! DEFINITION. Decoding (30_encoding.md R70 to R78), total on any bytes, and after it the encoder. -/

namespace Sys2Proof

/-- Why the decoder refuses. -/
inductive DecodeError where
  /-- The word matches no row of R75 ("anything else | undefined opcode"). -/
  | undefinedOpcode (w : Word)
  /-- Fewer than the two bytes every instruction has (R78). -/
  | truncated
deriving DecidableEq, Repr

/-! ## Fields (R70, R71) -/

/-- d1 = op[15:12], the highest nibble. -/
def opD1 (w : Word) : Nibble := w.extractLsb' 12 4
/-- d4 = op[3:0], the lowest nibble. -/
def opD4 (w : Word) : Nibble := w.extractLsb' 0 4
/-- x = d2 = op[11:8]. -/
def opX (w : Word) : Reg := (w.extractLsb' 8 4).toFin
/-- y = d3 = op[7:4]. -/
def opY (w : Word) : Reg := (w.extractLsb' 4 4).toFin
/-- n = d4 = op[3:0], the row count of Dxyn. -/
def opN (w : Word) : RowCount := (w.extractLsb' 0 4).toFin
/-- nn = op[7:0]. -/
def opNn (w : Word) : Byte := w.extractLsb' 0 8
/-- nnn = op[11:0]. -/
def opNnn (w : Word) : Addr12 := w.extractLsb' 0 12

/-! ## The opcode map, "by d1 first and then by the fixed nibbles" (R74, R75, R76) -/

/-- d1 = 0: the three fixed words; every other 0nnn is undefined (R77). -/
def decodeD1Zero (w : Word) : Except DecodeError Instr :=
  match opNnn w with
  | 0x000#12 => .ok .nop
  | 0x0E0#12 => .ok .cls
  | 0x0EE#12 => .ok .ret
  | _ => .error (.undefinedOpcode w)

/-- d1 = 8: the register-register operations, told apart by d4. -/
def decodeD1Eight (w : Word) : Except DecodeError Instr :=
  match opD4 w with
  | 0x0#4 => .ok (.ldReg (opX w) (opY w))
  | 0x1#4 => .ok (.orReg (opX w) (opY w))
  | 0x2#4 => .ok (.andReg (opX w) (opY w))
  | 0x3#4 => .ok (.xorReg (opX w) (opY w))
  | 0x4#4 => .ok (.addReg (opX w) (opY w))
  | 0x5#4 => .ok (.sub (opX w) (opY w))
  | 0x6#4 => .ok (.shr (opX w) (opY w))
  | 0x7#4 => .ok (.subn (opX w) (opY w))
  | 0xE#4 => .ok (.shl (opX w) (opY w))
  | _ => .error (.undefinedOpcode w)

/-- d1 = E: the key skips, told apart by the low byte. -/
def decodeD1E (w : Word) : Except DecodeError Instr :=
  match opNn w with
  | 0x9E#8 => .ok (.skp (opX w))
  | 0xA1#8 => .ok (.sknp (opX w))
  | _ => .error (.undefinedOpcode w)

/-- d1 = F: told apart by the low byte. -/
def decodeD1F (w : Word) : Except DecodeError Instr :=
  match opNn w with
  | 0x07#8 => .ok (.ldVxDt (opX w))
  | 0x0A#8 => .ok (.ldVxK (opX w))
  | 0x15#8 => .ok (.ldDtVx (opX w))
  | 0x18#8 => .ok (.ldStVx (opX w))
  | 0x1E#8 => .ok (.addI (opX w))
  | 0x29#8 => .ok (.ldF (opX w))
  | 0x33#8 => .ok (.ldB (opX w))
  | 0x55#8 => .ok (.storeRegs (opX w))
  | 0x65#8 => .ok (.loadRegs (opX w))
  | _ => .error (.undefinedOpcode w)

/-- An instruction of format `xy` whose d4 must be 0 (5xy0, 9xy0); any other d4 is undefined (R76). -/
def decodeD4Zero (i : Instr) (w : Word) : Except DecodeError Instr :=
  match opD4 w with
  | 0x0#4 => .ok i
  | _ => .error (.undefinedOpcode w)

/-- Decode(op): "a total function from the 16-bit word to one of the 35 instructions or to UNDEFINED" (R74). -/
def decodeWord (w : Word) : Except DecodeError Instr :=
  match opD1 w with
  | 0x0#4 => decodeD1Zero w
  | 0x1#4 => .ok (.jp (opNnn w))
  | 0x2#4 => .ok (.call (opNnn w))
  | 0x3#4 => .ok (.seImm (opX w) (opNn w))
  | 0x4#4 => .ok (.sneImm (opX w) (opNn w))
  | 0x5#4 => decodeD4Zero (.seReg (opX w) (opY w)) w
  | 0x6#4 => .ok (.ldImm (opX w) (opNn w))
  | 0x7#4 => .ok (.addImm (opX w) (opNn w))
  | 0x8#4 => decodeD1Eight w
  | 0x9#4 => decodeD4Zero (.sneReg (opX w) (opY w)) w
  | 0xA#4 => .ok (.ldI (opNnn w))
  | 0xB#4 => .ok (.jpV0 (opNnn w))
  | 0xC#4 => .ok (.rnd (opX w) (opNn w))
  | 0xD#4 => .ok (.drw (opX w) (opY w) (opN w))
  | 0xE#4 => decodeD1E w
  | 0xF#4 => decodeD1F w
  | _ => .error (.undefinedOpcode w)

/-- opcode = hi ++ lo: the byte at the lower address is the high byte (20_memory.md R54). -/
def opcodeOf (hi lo : Byte) : Word := hi ++ lo

/-- The decoder on a string of bytes: it consumes exactly two (R78) and gives back the rest. -/
def decodeBytes : List Byte → Except DecodeError (Instr × List Byte)
  | hi :: lo :: rest =>
    match decodeWord (opcodeOf hi lo) with
    | .ok i => .ok (i, rest)
    | .error e => .error e
  | _ => .error .truncated

/-! ## The encoder, from the formats of R73 and the patterns of R75 -/

/-- A register index or row count as the nibble that encodes it. -/
def nibbleOf (x : Fin 16) : Nibble := BitVec.ofFin x
/-- Format `nnn`: d1, then the 12 bits of nnn. -/
def formNnn (d1 : Nibble) (nnn : Addr12) : Word := d1 ++ nnn
/-- Formats `xnn` and `x`: d1, x, then a byte (the immediate, or the fixed low byte). -/
def formXnn (d1 : Nibble) (x : Reg) (nn : Byte) : Word := d1 ++ nibbleOf x ++ nn
/-- Formats `xy` and `xyn`: d1, x, y, then a nibble (the fixed d4, or n). -/
def formXyn (d1 : Nibble) (x y : Reg) (n : Nibble) : Word := d1 ++ nibbleOf x ++ nibbleOf y ++ n

/-- The word of an instruction (R75). -/
def encode : Instr → Word
  | .cls => 0x00E0#16
  | .ret => 0x00EE#16
  | .jp nnn => formNnn 0x1 nnn
  | .call nnn => formNnn 0x2 nnn
  | .seImm x nn => formXnn 0x3 x nn
  | .sneImm x nn => formXnn 0x4 x nn
  | .seReg x y => formXyn 0x5 x y 0x0
  | .ldImm x nn => formXnn 0x6 x nn
  | .addImm x nn => formXnn 0x7 x nn
  | .ldReg x y => formXyn 0x8 x y 0x0
  | .orReg x y => formXyn 0x8 x y 0x1
  | .andReg x y => formXyn 0x8 x y 0x2
  | .xorReg x y => formXyn 0x8 x y 0x3
  | .addReg x y => formXyn 0x8 x y 0x4
  | .sub x y => formXyn 0x8 x y 0x5
  | .shr x y => formXyn 0x8 x y 0x6
  | .subn x y => formXyn 0x8 x y 0x7
  | .shl x y => formXyn 0x8 x y 0xE
  | .sneReg x y => formXyn 0x9 x y 0x0
  | .ldI nnn => formNnn 0xA nnn
  | .jpV0 nnn => formNnn 0xB nnn
  | .rnd x nn => formXnn 0xC x nn
  | .drw x y n => formXyn 0xD x y (nibbleOf n)
  | .skp x => formXnn 0xE x 0x9E
  | .sknp x => formXnn 0xE x 0xA1
  | .ldVxDt x => formXnn 0xF x 0x07
  | .ldVxK x => formXnn 0xF x 0x0A
  | .ldDtVx x => formXnn 0xF x 0x15
  | .ldStVx x => formXnn 0xF x 0x18
  | .addI x => formXnn 0xF x 0x1E
  | .ldF x => formXnn 0xF x 0x29
  | .ldB x => formXnn 0xF x 0x33
  | .storeRegs x => formXnn 0xF x 0x55
  | .loadRegs x => formXnn 0xF x 0x65
  | .nop => 0x0000#16

/-- The two bytes of a word as they lie in memory, the first at the lower address (R54). -/
def wordBytes (w : Word) : List Byte := [w.extractLsb' 8 8, w.extractLsb' 0 8]

/-- The bytes of an instruction (R54, R78). -/
def encodeBytes (i : Instr) : List Byte := wordBytes (encode i)

/-! ## The match / mask pairs of R75, as the spec prints them -/

/-- One row's `match / mask` pair: a word w matches the row when `w & mask = match` (R75). -/
structure OpcodeRow where
  pattern : Word
  mask : Word
deriving DecidableEq, Repr

/-- A word w matches a row when `w & mask = match` (R75). -/
def OpcodeRow.covers (r : OpcodeRow) (w : Word) : Bool := w &&& r.mask == r.pattern

/-- The row of R75 that each instruction stands in. -/
def opcodeRow : Instr → OpcodeRow
  | .cls => ⟨0x00E0, 0xFFFF⟩
  | .ret => ⟨0x00EE, 0xFFFF⟩
  | .jp _ => ⟨0x1000, 0xF000⟩
  | .call _ => ⟨0x2000, 0xF000⟩
  | .seImm _ _ => ⟨0x3000, 0xF000⟩
  | .sneImm _ _ => ⟨0x4000, 0xF000⟩
  | .seReg _ _ => ⟨0x5000, 0xF00F⟩
  | .ldImm _ _ => ⟨0x6000, 0xF000⟩
  | .addImm _ _ => ⟨0x7000, 0xF000⟩
  | .ldReg _ _ => ⟨0x8000, 0xF00F⟩
  | .orReg _ _ => ⟨0x8001, 0xF00F⟩
  | .andReg _ _ => ⟨0x8002, 0xF00F⟩
  | .xorReg _ _ => ⟨0x8003, 0xF00F⟩
  | .addReg _ _ => ⟨0x8004, 0xF00F⟩
  | .sub _ _ => ⟨0x8005, 0xF00F⟩
  | .shr _ _ => ⟨0x8006, 0xF00F⟩
  | .subn _ _ => ⟨0x8007, 0xF00F⟩
  | .shl _ _ => ⟨0x800E, 0xF00F⟩
  | .sneReg _ _ => ⟨0x9000, 0xF00F⟩
  | .ldI _ => ⟨0xA000, 0xF000⟩
  | .jpV0 _ => ⟨0xB000, 0xF000⟩
  | .rnd _ _ => ⟨0xC000, 0xF000⟩
  | .drw _ _ _ => ⟨0xD000, 0xF000⟩
  | .skp _ => ⟨0xE09E, 0xF0FF⟩
  | .sknp _ => ⟨0xE0A1, 0xF0FF⟩
  | .ldVxDt _ => ⟨0xF007, 0xF0FF⟩
  | .ldVxK _ => ⟨0xF00A, 0xF0FF⟩
  | .ldDtVx _ => ⟨0xF015, 0xF0FF⟩
  | .ldStVx _ => ⟨0xF018, 0xF0FF⟩
  | .addI _ => ⟨0xF01E, 0xF0FF⟩
  | .ldF _ => ⟨0xF029, 0xF0FF⟩
  | .ldB _ => ⟨0xF033, 0xF0FF⟩
  | .storeRegs _ => ⟨0xF055, 0xF0FF⟩
  | .loadRegs _ => ⟨0xF065, 0xF0FF⟩
  | .nop => ⟨0x0000, 0xFFFF⟩

/-- The rows of d1 = 0 to 7, in the order of R75. -/
def opcodeRowsLow : List OpcodeRow :=
  [⟨0x00E0, 0xFFFF⟩, ⟨0x00EE, 0xFFFF⟩, ⟨0x1000, 0xF000⟩, ⟨0x2000, 0xF000⟩, ⟨0x3000, 0xF000⟩, ⟨0x4000, 0xF000⟩,
   ⟨0x5000, 0xF00F⟩, ⟨0x6000, 0xF000⟩, ⟨0x7000, 0xF000⟩]

/-- The rows of d1 = 8 and 9. -/
def opcodeRowsReg : List OpcodeRow :=
  [⟨0x8000, 0xF00F⟩, ⟨0x8001, 0xF00F⟩, ⟨0x8002, 0xF00F⟩, ⟨0x8003, 0xF00F⟩, ⟨0x8004, 0xF00F⟩, ⟨0x8005, 0xF00F⟩,
   ⟨0x8006, 0xF00F⟩, ⟨0x8007, 0xF00F⟩, ⟨0x800E, 0xF00F⟩, ⟨0x9000, 0xF00F⟩]

/-- The rows of d1 = A to F, and 0000 (row 35). -/
def opcodeRowsHigh : List OpcodeRow :=
  [⟨0xA000, 0xF000⟩, ⟨0xB000, 0xF000⟩, ⟨0xC000, 0xF000⟩, ⟨0xD000, 0xF000⟩, ⟨0xE09E, 0xF0FF⟩, ⟨0xE0A1, 0xF0FF⟩,
   ⟨0xF007, 0xF0FF⟩, ⟨0xF00A, 0xF0FF⟩, ⟨0xF015, 0xF0FF⟩, ⟨0xF018, 0xF0FF⟩, ⟨0xF01E, 0xF0FF⟩, ⟨0xF029, 0xF0FF⟩,
   ⟨0xF033, 0xF0FF⟩, ⟨0xF055, 0xF0FF⟩, ⟨0xF065, 0xF0FF⟩, ⟨0x0000, 0xFFFF⟩]

/-- The 35 rows of R75, in the spec's order. -/
def opcodeRows : List OpcodeRow := opcodeRowsLow ++ opcodeRowsReg ++ opcodeRowsHigh

/-! ## The host's reading of one opcode-table word -/

/-- The word that `nbits` bits of `w`, numbered as spec/opcode_table.json numbers them, stand for. -/
def tableWord (nbits w : Nat) : Word := BitVec.ofNat 16 (w % 2 ^ nbits)

/-- The instruction the decoder reads from one opcode-table word laid out in memory order. -/
def decodeTableWord (nbits w : Nat) : Option Instr :=
  match decodeBytes (wordBytes (tableWord nbits w)) with
  | .ok (i, _) => some i
  | .error _ => none

end Sys2Proof
end

