-- ==== Sys2Proof/Config.lean ====
section
/-! DEFINITION. What the configuration of the hardware fixes (00_scope.md R9, R12, R13, R14) and the one value the spec
leaves free, the draw of `tick` (R11).

The VALUES of the parameters for this hardware are `Sys2Proof.Machine.hwParams` (Machine/Ops.lean), with the default font
bytes `Sys2Proof.Machine.fontRom` (Machine/Memory.lean): they stand there because a later repair may mend those files. -/

namespace Sys2Proof.Config

/-- MEM_SIZE: addresses 0x000..0xFFF (R9, R50). -/
abbrev memSize : Nat := 0x1000

/-- PROGRAM_BASE: the reset PC and the load offset (R9, R52). -/
abbrev programBase : Nat := 0x200

/-- FONT_LEN: 16 glyphs of 5 bytes from FONT_BASE = 0x000 on (R9, R10). -/
abbrev fontLen : Nat := 80

/-- LOAD_MAX: the longest payload of `load` (R9, R189). -/
abbrev loadMax : Nat := 3584

/-- The parameters of the spec that have a choice of value; the transitions `Sys2Proof.Machine.hostCall` and
`Sys2Proof.Machine.stepUnder` take them as an argument, and no field of the state holds them (R21). -/
structure Params where
  /-- SHIFT_SRC_VY (R12): `true` selects the historical shifts, which read Vy (R128, R130). -/
  shiftSrcVy : Bool
  /-- LDST_INC_I (R13): `true` selects the historical Fx55/Fx65, which advance I (R144, R145). -/
  ldstIncI : Bool
  /-- LOW_GUARD (R14): `true` makes the accesses of R56 below 0x200 fatal. -/
  lowGuard : Bool
  /-- FONT_ROM (R10): the 80 bytes stored at 0x000..0x04F at reset, glyph d at bytes 5*d .. 5*d+4. -/
  fontRom : Vector Byte fontLen
deriving DecidableEq, Repr

/-- FREE VALUE (R11, decision D2): the byte `rand` that the host hands to the k-th draw. It has no body, so nothing
can be proved about any value of it: "the model places no law on it (every value is admitted at every tick)".
Log entry 2. -/
opaque randomByte : Nat → Byte

end Sys2Proof.Config
end

