-- ==== Sys2Proof/Machine/State.lean ====
section
/-! DEFINITION. The whole state of the core as plain data (10_state.md R20 to R38), the ways a step can stop, and the
state after reset. -/

namespace Sys2Proof.Machine

/-- The causes of a fatal condition, in the order of their codes 1..9 (60_exceptions.md R171). -/
inductive Cause where
  | undefinedOpcode
  | stackOverflow
  | stackUnderflow
  | fetchOutOfRange
  | dataOutOfRange
  | keyIndexOutOfRange
  | lowMemoryAccess
  | loadTooLarge
  | keyEventIndexOutOfRange
deriving DecidableEq, Repr

/-- The fault record `{cause, pc, opcode, info}` (R172). -/
structure FaultRecord where
  cause : Cause
  /-- The instruction address A, or the PC at the call for `load` and `key_down`. -/
  pc : Word
  /-- The fetched word, or none where no word was fetched. -/
  opcode : Option Word
  /-- The value in the last column of R171. -/
  info : Nat
deriving DecidableEq, Repr

/-- The run status (R35, R98). -/
inductive Status where
  | running
  | halted (r : FaultRecord)
deriving DecidableEq, Repr

/-- The host's entry points (00_scope.md R8), each an atomic transition. `reset` is also construction. The draw that
`tick` takes is no argument here: see `State.draws`. -/
inductive HostCall where
  | reset
  | load (data : List Byte)
  | tick
  | tickTimers
  | keyDown (index : Nat) (pressed : Bool)
  | getDisplay
deriving DecidableEq, Repr

/-- The display: 32 rows of 64 pixels, `true` a lit pixel (R32). -/
abbrev Display := Vector (Vector Bool 64) 32

/-- The machine's state. All but the last two fields are the spec's (R20); the last two are the MODEL's own. -/
structure State where
  /-- mem[0x000..0xFFF] (R50) in canonical form: only the bytes that differ from `resetByte` are listed, by rising
  address (`Memory.wf`). -/
  mem : List Host.Cell
  /-- V0..VF (R22). -/
  v : Vector Byte 16
  /-- The index register I (R25). -/
  i : Word
  /-- PC; at the start of a tick the instruction address A (R26). -/
  pc : Word
  /-- The delay timer DT (R29). -/
  dt : Byte
  /-- The sound timer ST (R30). -/
  st : Byte
  /-- stack[0..15] (R31). -/
  stack : Vector Word 16
  /-- SP, the current depth 0..16 (R31). -/
  sp : Fin 17
  /-- disp[px, py], held row by row (R32). -/
  disp : Display
  /-- key[0..15], `true` is pressed (R33). -/
  keys : Vector Bool 16
  /-- RUNNING or HALTED(r) (R35). -/
  status : Status
  /-- MODEL's own: how many random bytes have been drawn; the next draw is `Config.randomByte draws` (log entry 2). -/
  draws : Nat
  /-- MODEL's own: the calls the host makes next, the oldest first; when the list is empty the host calls `tick`
  (log entry 3). -/
  calls : List HostCall
deriving DecidableEq, Repr

/-- Why a step has no next state. -/
inductive Fault where
  /-- The host called `tick`, `tick_timers`, `key_down` or `load` on a HALTED core: those calls "have no transition"
  (R176). Raised by `hostCall` alone, never by an instruction. SAFE: the spec gives no step here either. -/
  | coreHalted (r : FaultRecord)
deriving DecidableEq, Repr

/-- Why the model refuses an instruction. -/
inductive Refusal where
  /-- The instruction has no meaning in the model yet. Raised only by an arm of `exec`; no arm raises it now. SAFE. -/
  | notModelled (mnemonic : String)
deriving DecidableEq, Repr

/-- The outcome type of every meaning. -/
abbrev Outcome := Host.Outcome State Fault Refusal

/-- The state after `reset` and after construction (R38, R200): memory at its reset contents (nothing listed), PC at
0x200, everything else zero, false, empty or RUNNING. `draws` and `calls` are the MODEL's own (log entries 2, 3). -/
def State.reset : State where
  mem := []
  v := Vector.replicate 16 0x00
  i := 0x0000
  pc := 0x0200
  dt := 0x00
  st := 0x00
  stack := Vector.replicate 16 0x0000
  sp := 0
  disp := Vector.replicate 32 (Vector.replicate 64 false)
  keys := Vector.replicate 16 false
  status := .running
  draws := 0
  calls := []

end Sys2Proof.Machine
end

