-- ==== Sys2Proof/Machine/Memory.lean ====
section
/-! DEFINITION. The 4096-byte memory (20_memory.md R50 to R59) as a sorted list of the bytes that differ from their
reset contents, with the font those contents begin with (10_state.md R34). -/

namespace Sys2Proof.Machine

/-- The memory: (address, byte) pairs in the canonical form `Memory.wf`. -/
abbrev Memory := List Host.Cell

/-- Glyphs 0..3 of R34, five bytes a glyph. -/
def fontRom0 : List Byte :=
  [0xF0, 0x90, 0x90, 0x90, 0xF0] ++ [0x20, 0x60, 0x20, 0x20, 0x70] ++
  [0xF0, 0x10, 0xF0, 0x80, 0xF0] ++ [0xF0, 0x10, 0xF0, 0x10, 0xF0]

/-- Glyphs 4..7 of R34. -/
def fontRom4 : List Byte :=
  [0x90, 0x90, 0xF0, 0x10, 0x10] ++ [0xF0, 0x80, 0xF0, 0x10, 0xF0] ++
  [0xF0, 0x80, 0xF0, 0x90, 0xF0] ++ [0xF0, 0x10, 0x20, 0x40, 0x40]

/-- Glyphs 8..B of R34. -/
def fontRom8 : List Byte :=
  [0xF0, 0x90, 0xF0, 0x90, 0xF0] ++ [0xF0, 0x90, 0xF0, 0x10, 0xF0] ++
  [0xF0, 0x90, 0xF0, 0x90, 0x90] ++ [0xE0, 0x90, 0xE0, 0x90, 0xE0]

/-- Glyphs C..F of R34. -/
def fontRomC : List Byte :=
  [0xF0, 0x80, 0x80, 0x80, 0xF0] ++ [0xE0, 0x90, 0x90, 0x90, 0xE0] ++
  [0xF0, 0x80, 0xF0, 0x80, 0xF0] ++ [0xF0, 0x80, 0xF0, 0x80, 0x80]

/-- The default value of the parameter FONT_ROM (R10, R34), glyph d at bytes 5*d .. 5*d+4. PRESUMED by the spec
itself ("from general knowledge, not in source"): log entry 1. -/
def fontRom : List Byte := fontRom0 ++ fontRom4 ++ fontRom8 ++ fontRomC

/-- What an unlisted address reads as, the reset contents of this hardware: the default font at 0x000..0x04F and 0x00
above it (R38, R52). Under another FONT_ROM, reset lists the bytes that differ (`State.construct`; log entry 18). -/
def resetByte (addr : Nat) : Byte := fontRom.getD addr 0x00

/-- The canonical form: addresses strictly rising and inside 0x000..0xFFF, and no entry equal to what its address
reads as when it is not listed. -/
abbrev Memory.wf (m : Memory) : Prop :=
  m.Pairwise (fun c d => c.1 < d.1) ∧ ∀ c ∈ m, c.1 < Config.memSize ∧ c.2 ≠ resetByte c.1

/-- The byte at an address: `mem[addr]` (R50). The range is the caller's check (R55). -/
def Memory.read : Memory → Nat → Byte
  | [], addr => resetByte addr
  | (k, c) :: rest, addr => if k = addr then c else Memory.read rest addr

/-- Put a cell before a memory of higher addresses, unless it is what the address reads as unlisted. -/
def Memory.place (addr : Nat) (b : Byte) (m : Memory) : Memory :=
  if b = resetByte addr then m else (addr, b) :: m

/-- `mem[addr] <- b`, keeping the canonical form. -/
def Memory.write : Memory → Nat → Byte → Memory
  | [], addr, b => Memory.place addr b []
  | (k, c) :: rest, addr, b =>
    if addr < k then Memory.place addr b ((k, c) :: rest)
    else if addr = k then Memory.place addr b rest
    else (k, c) :: Memory.write rest addr b

/-- `mem[addr + k] <- bytes[k]` for every k, in rising order (the loops of R143, R144, R189). -/
def Memory.writeBytes : Memory → Nat → List Byte → Memory
  | m, _, [] => m
  | m, addr, b :: bytes => Memory.writeBytes (Memory.write m addr b) (addr + 1) bytes

/-- The `count` bytes mem[addr .. addr + count - 1] (the loops of R145, R151). -/
def Memory.readBytes (m : Memory) (addr count : Nat) : List Byte :=
  (List.range count).map fun k => Memory.read m (addr + k)

end Sys2Proof.Machine
end

