-- ==== Sys2Proof/Machine/Ops.lean ====
section
/-! DEFINITION. The operations the instructions share: the parameter values of this hardware, register writes, the PC
advance, the checked memory accesses, the stack, taking a fatal condition, and the recovery from it. -/

namespace Sys2Proof.Machine

/-- The parameter values of this hardware (00_scope.md R10, R12, R13, R14): SHIFT_SRC_VY and LDST_INC_I are `false`,
fixed by the source; LOW_GUARD and FONT_ROM have their defaults, `false` and the table of R34 (log entries 1, 4). -/
def hwParams : Config.Params where
  shiftSrcVy := false
  ldstIncI := false
  lowGuard := false
  fontRom := ⟨fontRom.toArray, rfl⟩

/-! ## Registers and PC -/

/-- V[x] (R22). -/
def State.readV (s : State) (x : Reg) : Byte := s.v[x]

/-- V[x] <- b (R22). -/
def State.writeV (s : State) (x : Reg) (b : Byte) : State := { s with v := s.v.set x b }

/-- The fetch advance `PC <- PC +16 2`, made before the instruction executes (40_tick_cycle.md R90, R92). -/
def State.advancePc (s : State) : State := { s with pc := s.pc + 2 }

/-- A skip: PC <- PC + 2 on top of the fetch advance, when the condition holds (41_control_flow.md R109). -/
def State.skipIf (s : State) (c : Bool) : State := if c then s.advancePc else s

/-! ## Fatal conditions (60_exceptions.md R170 to R175) -/

/-- The argument of `raise Fatal(cause, info)` (R170). -/
structure Fatal where
  cause : Cause
  info : Nat
deriving DecidableEq, Repr

/-- The cause code of R171. -/
def Cause.code : Cause → Nat
  | .undefinedOpcode => 1
  | .stackOverflow => 2
  | .stackUnderflow => 3
  | .fetchOutOfRange => 4
  | .dataOutOfRange => 5
  | .keyIndexOutOfRange => 6
  | .lowMemoryAccess => 7
  | .loadTooLarge => 8
  | .keyEventIndexOutOfRange => 9

/-- TAKING A FATAL CONDITION, the hardware's only exception mechanism (R170): on the state at the START of the
transition, `status <- HALTED({cause, pc, opcode, info})` and nothing else changes (R90, R172, R174). There is no
vector, no handler and no saved register (R175). -/
def State.takeFatal (s0 : State) (opcode : Option Word) (f : Fatal) : State :=
  { s0 with status := .halted { cause := f.cause, pc := s0.pc, opcode := opcode, info := f.info } }

/-- Construction (`new`) under the parameters p: every piece of state has its reset value of 10_state.md R38, and
FONT_ROM is stored at 0x000..0x04F (R10, R200). With `hwParams` this is `State.reset`. -/
def State.construct (p : Config.Params) : State :=
  { State.reset with mem := Memory.writeBytes State.reset.mem 0x000 p.fontRom.toList }

/-- THE ONE RETURN FROM IT: `reset` by the host (R175, R200), which leaves the constructed state, font included. The
MODEL's own two fields are the world outside the core and stay (log entries 2, 3). -/
def State.hostReset (p : Config.Params) (s : State) : State :=
  { State.construct p with draws := s.draws, calls := s.calls }

/-- The end of a tick's pseudocode (R90): a completed Execute is the next state; if any step raised Fatal, the state
is the one at entry, HALTED. -/
def settle (opcode : Word) (s0 : State) : Except Fatal State → Outcome
  | .ok t => .next t
  | .error f => .next (s0.takeFatal (some opcode) f)

/-! ## Memory accesses with their checks (20_memory.md R55, R56) -/

/-- The kinds of access R56 tells apart. -/
inductive AccessKind where
  | fetch
  | dataRead
  | dataWrite
deriving DecidableEq, Repr

/-- `LowOK(addr, kind)` (R56). -/
def lowOk (p : Config.Params) (kind : AccessKind) (addr : Nat) : Bool :=
  !p.lowGuard ||
    match kind with
    | .fetch | .dataWrite => 0x200 ≤ addr
    | .dataRead => addr ≤ 0x04F || 0x200 ≤ addr

/-- `<cause>` of R55: FETCH_OUT_OF_RANGE for the fetch, DATA_OUT_OF_RANGE otherwise. -/
def rangeCause : AccessKind → Cause
  | .fetch => .fetchOutOfRange
  | .dataRead | .dataWrite => .dataOutOfRange

/-- `MemRead(addr, 1)`: the range check, then the LOW_GUARD check, then the byte (R55). -/
def memRead (p : Config.Params) (kind : AccessKind) (m : Memory) (addr : Nat) : Except Fatal Byte :=
  if 0xFFF < addr then .error ⟨rangeCause kind, addr⟩
  else if lowOk p kind addr then .ok (Memory.read m addr)
  else .error ⟨.lowMemoryAccess, addr⟩

/-- The checks of a block of `count` bytes from `base`, all made before the first access (43_index_memory.md R146):
against 0xFFF, with the first failing address `max(base, 0x1000)`, and then R56 on each address in turn. A block of no
bytes is not checked (R151, n = 0). -/
def blockFault (p : Config.Params) (kind : AccessKind) (base count : Nat) : Option Fatal :=
  if 0 < count ∧ 0xFFF < base + count - 1 then some ⟨.dataOutOfRange, max base 0x1000⟩
  else ((List.range count).find? fun k => !lowOk p kind (base + k)).map fun k => ⟨.lowMemoryAccess, base + k⟩

/-- `check(…) else raise Fatal(…)` for a block, then the effect. -/
def afterBlockCheck (p : Config.Params) (kind : AccessKind) (base count : Nat) (t : State) : Except Fatal State :=
  match blockFault p kind base count with
  | some f => .error f
  | none => .ok t

/-- The fetch of a tick: two consecutive bytes at A and A + 1, the addresses exact naturals, combined big-endian
(R54, R90). -/
def fetch (p : Config.Params) (s : State) : Except Fatal Word :=
  match memRead p .fetch s.mem s.pc.toNat with
  | .error f => .error f
  | .ok hi =>
    match memRead p .fetch s.mem (s.pc.toNat + 1) with
    | .error f => .error f
    | .ok lo => .ok (opcodeOf hi lo)

/-! ## The call stack (10_state.md R31) -/

/-- `stack[SP] <- w; SP <- SP + 1`, fatal STACK_OVERFLOW when SP = 16 (R102). -/
def State.push (s : State) (w : Word) : Except Fatal State :=
  if h : s.sp.val < 16 then .ok { s with stack := s.stack.set s.sp.val w h, sp := ⟨s.sp.val + 1, by omega⟩ }
  else .error ⟨.stackOverflow, s.sp.val⟩

/-- `SP <- SP - 1`, giving `stack[SP]`; fatal STACK_UNDERFLOW when SP = 0 (R100). The entry keeps its value (R31). -/
def State.pop (s : State) : Except Fatal (Word × State) :=
  if h : 0 < s.sp.val then
    .ok (s.stack[s.sp.val - 1]'(by omega), { s with sp := ⟨s.sp.val - 1, by omega⟩ })
  else .error ⟨.stackUnderflow, s.sp.val⟩

/-! ## The display (44_display.md) -/

/-- A pixel's coordinates: column px in 0..63, row py in 0..31. -/
abbrev Pixel := Fin 64 × Fin 32

/-- The pixel at exact coordinates wrapped modulo 64 and 32 (R153). -/
def wrapPixel (px py : Nat) : Pixel := (⟨px % 64, by omega⟩, ⟨py % 32, by omega⟩)

/-- disp[px, py] (R32). -/
def Display.lit (d : Display) (p : Pixel) : Bool := d[p.2][p.1]

/-- `disp[px, py] <- not disp[px, py]` (R151). -/
def Display.toggle (d : Display) (p : Pixel) : Display := d.set p.2 (d[p.2].set p.1 (!d[p.2][p.1]))

/-- Every pixel false (R150). -/
def Display.clear : Display := Vector.replicate 32 (Vector.replicate 64 false)

/-- The flat index `px + 64*py` of a pixel (R32). -/
def Pixel.flat (p : Pixel) : Nat := p.1.val + 64 * p.2.val

/-- The 2048 pixel values by flat index, the snapshot `get_display` returns (60_exceptions.md R188). -/
def Display.snapshot (d : Display) : List Bool := (d.toList.map Vector.toList).flatten

/-! ## The keypad (45_timers_input.md) -/

/-- `min { k | key[k] = true }`, or none when no key is down (R163). -/
def lowestKey (keys : Vector Bool 16) : Option Reg := (List.finRange 16).find? fun k => keys[k]

end Sys2Proof.Machine
end

