-- ==== Sys2Proof/Machine/Operands.lean ====
section
/-! DEFINITION. The operand forms: the zero-extensions of R72, the I-relative block of R146, the register block V0..Vx,
the BCD digits, and the sprite with its target pixels. -/

namespace Sys2Proof.Machine

/-- `zext_16(nnn)` (R72). -/
def zextAddr (nnn : Addr12) : Word := nnn.setWidth 16

/-- `zext_16(V[x])` (R103, R141, R142). -/
def zextByte (b : Byte) : Word := b.setWidth 16

/-- The effective address of the first byte an instruction accesses: I as an exact natural (R146). -/
def State.base (s : State) : Nat := s.i.toNat

/-- V0..Vx, the block Fx55 stores (R144). -/
def State.regBlock (s : State) (x : Reg) : List Byte := s.v.toList.take (x.val + 1)

/-- V with V[k] replaced by mem[base + k] for every k in 0..x, the block Fx65 loads (R145). -/
def loadBlock (m : Memory) (base : Nat) (x : Reg) (v : Vector Byte 16) : Vector Byte 16 :=
  Vector.ofFn fun k => if k ≤ x then Memory.read m (base + k.val) else v[k]

/-- Hundreds, tens, ones of a byte (R143). -/
def bcdDigits (b : Byte) : List Byte := [b / 100, b / 10 % 10, b % 10]

/-- Advance I past the block under LDST_INC_I (R144, R145): `I <- I +16 (x + 1)`. -/
def State.bumpI (p : Config.Params) (x : Reg) (s : State) : State :=
  if p.ldstIncI then { s with i := s.i + BitVec.ofNat 16 (x.val + 1) } else s

/-- The register a shift reads (R128, R130): Vx on this hardware, Vy under SHIFT_SRC_VY. -/
def shiftSource (p : Config.Params) (x y : Reg) : Reg := if p.shiftSrcVy then y else x

/-- The pixels the set bits of one sprite row stand for, column 0 first; bit 7 is column 0 (R152). -/
def rowTargets (px0 py : Nat) (row : Byte) : List Pixel :=
  (List.range 8).filterMap fun col => if row.getLsbD (7 - col) then some (wrapPixel (px0 + col) py) else none

/-- The pixels the set bits of a whole sprite stand for, in the order of R151's loops. -/
def spriteTargets (px0 : Nat) : Nat → List Byte → List Pixel
  | _, [] => []
  | py, row :: rows => rowTargets px0 py row ++ spriteTargets px0 (py + 1) rows

/-- R151's inner statements over a list of pixels: a lit pixel sets the collision, and every pixel is toggled. -/
def drawPixels : List Pixel → Display → Bool → Display × Bool
  | [], d, c => (d, c)
  | p :: ps, d, c => drawPixels ps (Display.toggle d p) (c || Display.lit d p)

end Sys2Proof.Machine
end

