-- ==== Sys2Proof/Machine/Flags.lean ====
section
/-! DEFINITION. The values VF takes as a flag (42_alu.md R133): each is 0 or 1. -/

namespace Sys2Proof.Machine

/-- `(c) ? 1 : 0`. -/
def flagByte (c : Bool) : Byte := if c then 0x01 else 0x00

/-- Carry of 8xy4: 1 iff the exact sum exceeds 255 (R126). -/
def carryFlag (a b : Byte) : Byte := flagByte (255 < a.toNat + b.toNat)

/-- No-borrow of `a - b`: 1 iff a >= b before the subtraction (R127, R129). -/
def noBorrowFlag (a b : Byte) : Byte := flagByte (b.toNat ≤ a.toNat)

/-- The bit 8xy6 shifts out: old bit 0 (R128). -/
def shiftOutLow (a : Byte) : Byte := flagByte (a.getLsbD 0)

/-- The bit 8xyE shifts out: old bit 7 (R130). -/
def shiftOutHigh (a : Byte) : Byte := flagByte (a.getLsbD 7)

/-- A result into Vx and then a flag into VF, written last so that it is the final VF when x = 0xF (R96). -/
def State.writeResultAndFlag (s : State) (x : Reg) (result flag : Byte) : State :=
  (s.writeV x result).writeV VF flag

end Sys2Proof.Machine
end

