-- ==== Sys2Proof/Machine/Alu.lean ====
section
/-! DEFINITION. Register loads and arithmetic (42_alu.md). All operands are read from the state at entry; the result is
written first and a flag last (R96). All arithmetic is unsigned and wraps (R132). -/

namespace Sys2Proof.Machine

/-- `6xnn` LD Vx, nn (R120). -/
def execLdImm (x : Reg) (nn : Byte) (s : State) : Outcome := .next (s.advancePc.writeV x nn)

/-- `7xnn` ADD Vx, nn: wrapping, no flag effect (R121). -/
def execAddImm (x : Reg) (nn : Byte) (s : State) : Outcome := .next (s.advancePc.writeV x (s.readV x + nn))

/-- `8xy0` LD Vx, Vy (R122). -/
def execLdReg (x y : Reg) (s : State) : Outcome := .next (s.advancePc.writeV x (s.readV y))

/-- `8xy1` OR Vx, Vy; VF is not reset (R123). -/
def execOrReg (x y : Reg) (s : State) : Outcome := .next (s.advancePc.writeV x (s.readV x ||| s.readV y))

/-- `8xy2` AND Vx, Vy; VF is not reset (R124). -/
def execAndReg (x y : Reg) (s : State) : Outcome := .next (s.advancePc.writeV x (s.readV x &&& s.readV y))

/-- `8xy3` XOR Vx, Vy; VF is not reset (R125). -/
def execXorReg (x y : Reg) (s : State) : Outcome := .next (s.advancePc.writeV x (s.readV x ^^^ s.readV y))

/-- `8xy4` ADD Vx, Vy; VF = carry (R126). -/
def execAddReg (x y : Reg) (s : State) : Outcome :=
  .next (s.advancePc.writeResultAndFlag x (s.readV x + s.readV y) (carryFlag (s.readV x) (s.readV y)))

/-- `8xy5` SUB Vx, Vy; VF = no-borrow, from the comparison before the subtraction (R127). -/
def execSub (x y : Reg) (s : State) : Outcome :=
  .next (s.advancePc.writeResultAndFlag x (s.readV x - s.readV y) (noBorrowFlag (s.readV x) (s.readV y)))

/-- `8xy7` SUBN Vx, Vy: Vy - Vx; VF = no-borrow (R129). -/
def execSubn (x y : Reg) (s : State) : Outcome :=
  .next (s.advancePc.writeResultAndFlag x (s.readV y - s.readV x) (noBorrowFlag (s.readV y) (s.readV x)))

/-- The pseudocode of `8xy6` under a choice of SHIFT_SRC_VY (R128). -/
def shiftRightBody (p : Config.Params) (x y : Reg) (s : State) : State :=
  let a := s.readV (shiftSource p x y)
  s.writeResultAndFlag x (a >>> 1) (shiftOutLow a)

/-- The pseudocode of `8xyE` under a choice of SHIFT_SRC_VY (R130). -/
def shiftLeftBody (p : Config.Params) (x y : Reg) (s : State) : State :=
  let a := s.readV (shiftSource p x y)
  s.writeResultAndFlag x (a <<< 1) (shiftOutHigh a)

/-- `8xy6` under the parameters p (R128). -/
def execShrUnder (p : Config.Params) (x y : Reg) (s : State) : Outcome := .next (shiftRightBody p x y s.advancePc)

/-- `8xyE` under the parameters p (R130). -/
def execShlUnder (p : Config.Params) (x y : Reg) (s : State) : Outcome := .next (shiftLeftBody p x y s.advancePc)

/-- `8xy6` SHR Vx, Vy: shifts Vx, y is ignored; VF = old bit 0 (R128). -/
def execShr (x y : Reg) (s : State) : Outcome := execShrUnder hwParams x y s

/-- `8xyE` SHL Vx, Vy: shifts Vx, y is ignored; VF = old bit 7 (R130). -/
def execShl (x y : Reg) (s : State) : Outcome := execShlUnder hwParams x y s

/-- The pseudocode of `Cxnn` for a draw `rand`: `V[x] <- rand & nn` (R131). One draw is consumed. -/
def randomBody (rand : Byte) (x : Reg) (nn : Byte) (s : State) : State :=
  { s.writeV x (rand &&& nn) with draws := s.draws + 1 }

/-- `Cxnn` RND Vx, nn: the draw is the free value `Config.randomByte` (R11, R131; log entry 2). -/
def execRnd (x : Reg) (nn : Byte) (s : State) : Outcome :=
  .next (randomBody (Config.randomByte s.draws) x nn s.advancePc)

end Sys2Proof.Machine
end

