-- ==== Sys2Proof/Machine/ControlFlow.lean ====
section
/-! DEFINITION. Control transfer and skips (41_control_flow.md). A meaning takes the state at the start of the tick
(PC = A); the pseudocode of its rule runs on `s.advancePc` (PC = A + 2). -/

namespace Sys2Proof.Machine

/-- The pseudocode of `00EE` (R100), on the state after the fetch advance. -/
def returnBody (s : State) : Except Fatal State :=
  match s.pop with
  | .ok (target, t) => .ok { t with pc := target }
  | .error f => .error f

/-- The pseudocode of `2nnn` (R102): it pushes the advanced PC, A + 2. -/
def callBody (nnn : Addr12) (s : State) : Except Fatal State :=
  match s.push s.pc with
  | .ok t => .ok { t with pc := zextAddr nnn }
  | .error f => .error f

/-- `00EE` RET: `PC <- pop()` (R100). -/
def execRet (s : State) : Outcome := settle (encode .ret) s (returnBody s.advancePc)

/-- `1nnn` JP nnn: `PC <- zext_16(nnn)` (R101). -/
def execJp (nnn : Addr12) (s : State) : Outcome := .next { s.advancePc with pc := zextAddr nnn }

/-- `2nnn` CALL nnn: push A + 2, then `PC <- zext_16(nnn)` (R102). -/
def execCall (nnn : Addr12) (s : State) : Outcome := settle (encode (.call nnn)) s (callBody nnn s.advancePc)

/-- `Bnnn` JP V0, nnn: the exact sum of nnn and V0, not masked to 12 bits (R103). -/
def execJpV0 (nnn : Addr12) (s : State) : Outcome :=
  .next { s.advancePc with pc := zextAddr nnn + zextByte (s.readV 0) }

/-- `3xnn` SE Vx, nn (R104). -/
def execSeImm (x : Reg) (nn : Byte) (s : State) : Outcome := .next (s.advancePc.skipIf (s.readV x == nn))

/-- `4xnn` SNE Vx, nn (R105). -/
def execSneImm (x : Reg) (nn : Byte) (s : State) : Outcome := .next (s.advancePc.skipIf (s.readV x != nn))

/-- `5xy0` SE Vx, Vy (R106). -/
def execSeReg (x y : Reg) (s : State) : Outcome := .next (s.advancePc.skipIf (s.readV x == s.readV y))

/-- `9xy0` SNE Vx, Vy (R107). -/
def execSneReg (x y : Reg) (s : State) : Outcome := .next (s.advancePc.skipIf (s.readV x != s.readV y))

/-- `0000` NOP: nothing beyond the fetch advance (R108). -/
def execNop (s : State) : Outcome := .next s.advancePc

end Sys2Proof.Machine
end

