-- ==== Sys2Proof/Machine/DisplayDraw.lean ====
section
/-! DEFINITION. The display instructions (44_display.md). -/

namespace Sys2Proof.Machine

/-- `00E0` CLS: every pixel false, VF unchanged (R150). -/
def execCls (s : State) : Outcome := .next { s.advancePc with disp := Display.clear }

/-- R151's effect once the checks have passed: all rows are read, then the target pixels are toggled, then VF takes
the collision. -/
def drawSprite (x y : Reg) (n : RowCount) (s : State) : State :=
  let rows := Memory.readBytes s.mem s.base n.val
  let drawn := drawPixels (spriteTargets (s.readV x).toNat (s.readV y).toNat rows) s.disp false
  { s with disp := drawn.1 }.writeV VF (flagByte drawn.2)

/-- The pseudocode of `Dxyn` (R151). -/
def drawBody (p : Config.Params) (x y : Reg) (n : RowCount) (s : State) : Except Fatal State :=
  afterBlockCheck p .dataRead s.base n.val (drawSprite x y n s)

/-- `Dxyn` under the parameters p (R151). -/
def execDrwUnder (p : Config.Params) (x y : Reg) (n : RowCount) (s : State) : Outcome :=
  settle (encode (.drw x y n)) s (drawBody p x y n s.advancePc)

/-- `Dxyn` DRW Vx, Vy, n: XOR an n-row sprite with wrap; VF = collision (R151). -/
def execDrw (x y : Reg) (n : RowCount) (s : State) : Outcome := execDrwUnder hwParams x y n s

end Sys2Proof.Machine
end

