-- ==== Sys2Proof/Machine/IndexMemory.lean ====
section
/-! DEFINITION. The index register and the memory instructions (43_index_memory.md). -/

namespace Sys2Proof.Machine

/-- `Annn` LD I, nnn (R140). -/
def execLdI (nnn : Addr12) (s : State) : Outcome := .next { s.advancePc with i := zextAddr nnn }

/-- `Fx1E` ADD I, Vx: wrapping within 16 bits, VF unchanged (R141). -/
def execAddI (x : Reg) (s : State) : Outcome := .next { s.advancePc with i := s.i + zextByte (s.readV x) }

/-- `Fx29` LD F, Vx: `I <- zext_16(V[x]) * 5`, Vx not masked (R142). -/
def execLdF (x : Reg) (s : State) : Outcome := .next { s.advancePc with i := zextByte (s.readV x) * 5 }

/-- The pseudocode of `Fx33` (R143). -/
def bcdBody (p : Config.Params) (x : Reg) (s : State) : Except Fatal State :=
  afterBlockCheck p .dataWrite s.base 3 { s with mem := Memory.writeBytes s.mem s.base (bcdDigits (s.readV x)) }

/-- The pseudocode of `Fx55` under a choice of LDST_INC_I (R144). -/
def storeRegsBody (p : Config.Params) (x : Reg) (s : State) : Except Fatal State :=
  afterBlockCheck p .dataWrite s.base (x.val + 1)
    (State.bumpI p x { s with mem := Memory.writeBytes s.mem s.base (s.regBlock x) })

/-- The pseudocode of `Fx65` under a choice of LDST_INC_I (R145). -/
def loadRegsBody (p : Config.Params) (x : Reg) (s : State) : Except Fatal State :=
  afterBlockCheck p .dataRead s.base (x.val + 1)
    (State.bumpI p x { s with v := loadBlock s.mem s.base x s.v })

/-- `Fx33` under the parameters p (R143). -/
def execLdBUnder (p : Config.Params) (x : Reg) (s : State) : Outcome :=
  settle (encode (.ldB x)) s (bcdBody p x s.advancePc)

/-- `Fx55` under the parameters p (R144). -/
def execStoreRegsUnder (p : Config.Params) (x : Reg) (s : State) : Outcome :=
  settle (encode (.storeRegs x)) s (storeRegsBody p x s.advancePc)

/-- `Fx65` under the parameters p (R145). -/
def execLoadRegsUnder (p : Config.Params) (x : Reg) (s : State) : Outcome :=
  settle (encode (.loadRegs x)) s (loadRegsBody p x s.advancePc)

/-- `Fx33` LD B, Vx: store the BCD of Vx at I, I+1, I+2 (R143). -/
def execLdB (x : Reg) (s : State) : Outcome := execLdBUnder hwParams x s

/-- `Fx55` LD [I], Vx: store V0..Vx from I on; I is not changed (R144). -/
def execStoreRegs (x : Reg) (s : State) : Outcome := execStoreRegsUnder hwParams x s

/-- `Fx65` LD Vx, [I]: load V0..Vx from I on; I is not changed (R145). -/
def execLoadRegs (x : Reg) (s : State) : Outcome := execLoadRegsUnder hwParams x s

end Sys2Proof.Machine
end

