-- ==== Sys2Proof/Machine/TimersInput.lean ====
section
/-! DEFINITION. The key and timer instructions (45_timers_input.md). -/

namespace Sys2Proof.Machine

/-- The skips of `Ex9E` (`wanted` = true) and `ExA1` (`wanted` = false): fatal KEY_INDEX_OUT_OF_RANGE when Vx > 15,
else skip when key[Vx] has the wanted level (R160, R161). -/
def keySkipBody (wanted : Bool) (x : Reg) (s : State) : Except Fatal State :=
  if h : (s.readV x).toNat ≤ 15 then
    .ok (s.skipIf (s.keys[(s.readV x).toNat]'(by omega) == wanted))
  else .error ⟨.keyIndexOutOfRange, (s.readV x).toNat⟩

/-- The pseudocode of `Fx0A` (R163): the lowest key that is down into Vx, or PC back to A. -/
def waitKeyBody (x : Reg) (s : State) : State :=
  match lowestKey s.keys with
  | some k => s.writeV x (BitVec.ofNat 8 k.val)
  | none => { s with pc := s.pc - 2 }

/-- `Ex9E` SKP Vx (R160). -/
def execSkp (x : Reg) (s : State) : Outcome := settle (encode (.skp x)) s (keySkipBody true x s.advancePc)

/-- `ExA1` SKNP Vx (R161). -/
def execSknp (x : Reg) (s : State) : Outcome := settle (encode (.sknp x)) s (keySkipBody false x s.advancePc)

/-- `Fx07` LD Vx, DT (R162). -/
def execLdVxDt (x : Reg) (s : State) : Outcome := .next (s.advancePc.writeV x s.dt)

/-- `Fx0A` LD Vx, K: wait for a key, by re-execution (R163). -/
def execLdVxK (x : Reg) (s : State) : Outcome := .next (waitKeyBody x s.advancePc)

/-- `Fx15` LD DT, Vx (R164). -/
def execLdDtVx (x : Reg) (s : State) : Outcome := .next { s.advancePc with dt := s.readV x }

/-- `Fx18` LD ST, Vx; no beep (R165). -/
def execLdStVx (x : Reg) (s : State) : Outcome := .next { s.advancePc with st := s.readV x }

end Sys2Proof.Machine
end

