-- ==== Sys2Proof/Machine/HostCalls.lean ====
section
/-! DEFINITION. The host's entry points (00_scope.md R8; 60_exceptions.md R180 to R191; 40_tick_cycle.md R90, R98). -/

namespace Sys2Proof.Machine

/-- Execute(inst) under the parameters p (R21, R90): `exec` with the parameters of the six instructions whose rules name
one. The others' rules name none, so they are `exec`'s own under every value. -/
def execUnder (p : Config.Params) (i : Instr) (s : State) : Outcome :=
  match i with
  | .shr x y => execShrUnder p x y s
  | .shl x y => execShlUnder p x y s
  | .drw x y n => execDrwUnder p x y n s
  | .ldB x => execLdBUnder p x s
  | .storeRegs x => execStoreRegsUnder p x s
  | .loadRegs x => execLoadRegsUnder p x s
  | .cls | .ret | .nop | .jp _ | .call _ | .ldI _ | .jpV0 _ => exec i s
  | .seImm _ _ | .sneImm _ _ | .seReg _ _ | .sneReg _ _ | .skp _ | .sknp _ => exec i s
  | .ldImm _ _ | .addImm _ _ | .ldReg _ _ | .orReg _ _ | .andReg _ _ | .xorReg _ _ | .rnd _ _ => exec i s
  | .addReg _ _ | .sub _ _ | .subn _ _ => exec i s
  | .ldVxDt _ | .ldVxK _ | .ldDtVx _ | .ldStVx _ | .addI _ | .ldF _ => exec i s

/-- `tick(rand)` on a RUNNING core (R90): fetch, decode, execute; any fatal condition leaves the state at entry,
HALTED. -/
def tick (p : Config.Params) (s : State) : Outcome :=
  match fetch p s with
  | .error f => .next (s.takeFatal none f)
  | .ok w =>
    match decodeWord w with
    | .error _ => .next (s.takeFatal (some w) ⟨.undefinedOpcode, w.toNat⟩)
    | .ok i => execUnder p i s

/-- A timer counts down and stops at 0 (R181). -/
def countDown (t : Byte) : Byte := if t = 0 then 0 else t - 1

/-- `tick_timers()`: both timers count down (R180). -/
def tickTimers (s : State) : State := { s with dt := countDown s.dt, st := countDown s.st }

/-- The output of `tick_timers()`: the beep, true iff this call takes ST from 1 to 0 (R180, R182). -/
def beep (s : State) : Bool := s.st == 1

/-- `key_down(index, pressed)` (R187). -/
def keyDown (index : Nat) (pressed : Bool) (s : State) : State :=
  if h : index ≤ 15 then { s with keys := s.keys.set index pressed (by omega) }
  else s.takeFatal none ⟨.keyEventIndexOutOfRange, index⟩

/-- `load(data)` (R189). -/
def load (data : List Byte) (s : State) : State :=
  if data.length ≤ Config.loadMax then { s with mem := Memory.writeBytes s.mem Config.programBase data }
  else s.takeFatal none ⟨.loadTooLarge, data.length⟩

/-- The output of `get_display()`: the 2048 pixels by flat index; it changes no state (R188). -/
def getDisplay (s : State) : List Bool := Display.snapshot s.disp

/-- A call that only a RUNNING core accepts: on a HALTED core it has no transition (R176). -/
def whenRunning (s : State) (o : Outcome) : Outcome :=
  match s.status with
  | .running => o
  | .halted r => .fault (.coreHalted r)

/-- One call of the host, one atomic transition (R8, R98): `get_display` and `reset` are accepted always, the others
only while RUNNING. It takes the parameters as an argument (R21): `tick` and `reset` read them. -/
def hostCall (p : Config.Params) (c : HostCall) (s : State) : Outcome :=
  match c with
  | .reset => .next (s.hostReset p)
  | .getDisplay => .next s
  | .tick => whenRunning s (tick p s)
  | .tickTimers => whenRunning s (.next (tickTimers s))
  | .keyDown index pressed => whenRunning s (.next (keyDown index pressed s))
  | .load data => whenRunning s (.next (load data s))

/-- One step under the parameters p is one call of the host (00_scope.md R7, R8): the oldest one listed in `calls`, and
`tick` when none is listed. -/
def stepUnder (p : Config.Params) (s : State) : Outcome :=
  match s.calls with
  | [] => hostCall p .tick s
  | c :: rest => hostCall p c { s with calls := rest }

/-- What a call returns to the host (the outputs column of R8). -/
inductive CallOutput where
  | nothing
  | beep (b : Bool)
  | display (pixels : List Bool)
  | status (r : Status)
deriving DecidableEq, Repr

/-- The output of a call accepted at s, where t is the state after it. -/
def callOutput (c : HostCall) (s t : State) : CallOutput :=
  match c with
  | .reset => .nothing
  | .load _ | .keyDown _ _ | .tick => .status t.status
  | .tickTimers => .beep (beep s)
  | .getDisplay => .display (getDisplay s)

/-- The address withFetchWord stores at: PC where a word can be fetched there, else the reset vector. -/
def fetchPlace (pc : Word) : Word := if pc.toNat ≤ 0xFFE then pc else 0x0200

/-- Place a word where the next step fetches its instruction, and let that step be a `tick` of a RUNNING core. -/
def placeWord (w : Word) (s : State) : State :=
  { s with
    mem := Memory.writeBytes s.mem (fetchPlace s.pc).toNat (wordBytes w)
    pc := fetchPlace s.pc
    status := .running
    calls := [] }

end Sys2Proof.Machine
end

