-- ==== Sys2Proof/Machine/Step.lean ====
section
/-! DEFINITION. One step of the machine: the host's next call. -/

namespace Sys2Proof.Machine

/-- One step of this hardware: the host's next call, under this hardware's parameters (00_scope.md R7, R8, R10 to R14). -/
def step (s : State) : Host.Outcome State Fault Refusal := stepUnder hwParams s

/-- s with one opcode-table word stored where `step` fetches its next instruction: at PC (at 0x200 where PC is past
0xFFE and no word can stand there), with the core RUNNING and no host call before the tick (log entry 5). -/
def State.withFetchWord (s : State) (nbits w : Nat) : State := placeWord (tableWord nbits w) s

end Sys2Proof.Machine
end

