-- ==== Sys2Proof/Safety.lean ====
section
/-! DEFINITION. What counts as a safe state and a safe run, in the terms the statements use. -/

namespace Sys2Proof.Machine

/-- The invariant of every state a run can reach: memory is in its canonical form, PC is at most 0x10FE, "the largest
value PC can hold after a successful tick" (10_state.md R28), and every return address the stack holds is at most
0x1000, the fetch PC of the last word. -/
structure State.Inv (s : State) : Prop where
  memory : Memory.wf s.mem
  pc : s.pc.toNat ≤ 0x10FE
  stack : ∀ k : Fin 16, s.stack[k].toNat ≤ 0x1000

/-- Which causes the host's calls `load` and `key_down` raise, rather than `tick` (60_exceptions.md R171). -/
def Cause.fromHostCall : Cause → Bool
  | .loadTooLarge | .keyEventIndexOutOfRange => true
  | .undefinedOpcode | .stackOverflow | .stackUnderflow | .fetchOutOfRange | .dataOutOfRange
  | .keyIndexOutOfRange | .lowMemoryAccess => false

/-- What the fault record of a HALTED core says of the state it stands in, with LOW_GUARD = false (R172): its pc is
the PC, and the opcode is missing exactly where no word was fetched. -/
def State.HaltRecordSound (s : State) : Prop :=
  ∀ r, s.status = .halted r →
    r.pc = s.pc ∧ (r.opcode = none ↔ r.cause = .fetchOutOfRange ∨ r.cause.fromHostCall = true) ∧
      r.cause ≠ .lowMemoryAccess

/-- The core is RUNNING: no fatal condition has been raised since the last reset (R35). -/
def State.Running (s : State) : Prop := s.status = .running

/-- A safe run of n steps from s: every step has a next state and no state on the way is HALTED (R207). -/
def SafeRun : Nat → State → Prop
  | 0, s => s.Running
  | n + 1, s => s.Running ∧ ∃ t, step s = .next t ∧ SafeRun n t

/-! ## Frames -/

/-- The parts of the state besides the general registers and PC. -/
inductive Component where
  | memory | index | delay | sound | stack | display | keypad | runStatus | draws | calls
deriving DecidableEq, Repr

/-- The part is the same after (t) as before (s); of memory, every byte reads as before. -/
def Component.kept (c : Component) (s t : State) : Prop :=
  match c with
  | .memory => ∀ a, Memory.read t.mem a = Memory.read s.mem a
  | .index => t.i = s.i
  | .delay => t.dt = s.dt
  | .sound => t.st = s.st
  | .stack => t.stack = s.stack ∧ t.sp = s.sp
  | .display => ∀ p, Display.lit t.disp p = Display.lit s.disp p
  | .keypad => t.keys = s.keys
  | .runStatus => t.status = s.status
  | .draws => t.draws = s.draws
  | .calls => t.calls = s.calls

/-- THE FRAME (40_tick_cycle.md R97): from s to t every general register outside `regs` and every part outside `parts`
is unchanged. PC may change. -/
def Frame (regs : List Reg) (parts : List Component) (s t : State) : Prop :=
  (∀ r, r ∉ regs → t.readV r = s.readV r) ∧ ∀ c, c ∉ parts → c.kept s t

/-- The outcome is s itself, HALTED with this cause and info: a precise fatal condition (60_exceptions.md R170, R174). -/
def HaltsWith (s : State) (cause : Cause) (info : Nat) (o : Outcome) : Prop :=
  ∃ r, o = .next { s with status := .halted r } ∧ r.cause = cause ∧ r.info = info

/-- The host's next call is `tick`, and `rest` are the calls after it. -/
def TickIsNext (s : State) (rest : List HostCall) : Prop :=
  s.calls = [] ∧ rest = [] ∨ s.calls = .tick :: rest

/-- The word at PC: mem[A] ++ mem[A + 1] (20_memory.md R54). -/
def State.wordAtPc (s : State) : Word :=
  opcodeOf (Memory.read s.mem s.pc.toNat) (Memory.read s.mem (s.pc.toNat + 1))

/-! ## What the spec's tables say each instruction writes and raises -/

/-- V0..Vx. -/
def upTo (x : Reg) : List Reg := (List.finRange 16).filter (· ≤ x)

/-- The registers an instruction may write: the last column of 10_state.md R24. -/
def regsWritten : Instr → List Reg
  | .cls | .ret | .nop | .jp _ | .call _ | .ldI _ | .jpV0 _ => []
  | .seImm _ _ | .sneImm _ _ | .seReg _ _ | .sneReg _ _ | .skp _ | .sknp _ => []
  | .ldImm x _ | .addImm x _ | .rnd x _ => [x]
  | .ldReg x _ | .orReg x _ | .andReg x _ | .xorReg x _ => [x]
  | .addReg x _ | .sub x _ | .shr x _ | .subn x _ | .shl x _ => [x, VF]
  | .drw _ _ _ => [VF]
  | .ldVxDt x | .ldVxK x => [x]
  | .ldDtVx _ | .ldStVx _ | .addI _ | .ldF _ | .ldB _ | .storeRegs _ => []
  | .loadRegs x => upTo x

/-- The parts of the state an instruction may write besides registers and PC when it raises nothing (20_memory.md R51;
10_state.md R25, R29 to R33; 42_alu.md R131 for the draw). -/
def partsWritten : Instr → List Component
  | .cls | .drw _ _ _ => [.display]
  | .ret | .call _ => [.stack]
  | .ldI _ | .addI _ | .ldF _ => [.index]
  | .ldB _ | .storeRegs _ => [.memory]
  | .ldDtVx _ => [.delay]
  | .ldStVx _ => [.sound]
  | .rnd _ _ => [.draws]
  | .nop | .jp _ | .jpV0 _ | .seImm _ _ | .sneImm _ _ | .seReg _ _ | .sneReg _ _ | .skp _ | .sknp _ => []
  | .ldImm _ _ | .addImm _ _ | .ldReg _ _ | .orReg _ _ | .andReg _ _ | .xorReg _ _ => []
  | .addReg _ _ | .sub _ _ | .shr _ _ | .subn _ _ | .shl _ _ | .ldVxDt _ | .ldVxK _ | .loadRegs _ => []

/-- The causes an instruction may raise with LOW_GUARD = false (60_exceptions.md R171, "raised by"). -/
def causesRaised : Instr → List Cause
  | .ret => [.stackUnderflow]
  | .call _ => [.stackOverflow]
  | .drw _ _ _ | .ldB _ | .storeRegs _ | .loadRegs _ => [.dataOutOfRange]
  | .skp _ | .sknp _ => [.keyIndexOutOfRange]
  | .cls | .nop | .jp _ | .jpV0 _ | .seImm _ _ | .sneImm _ _ | .seReg _ _ | .sneReg _ _ => []
  | .ldImm _ _ | .addImm _ _ | .ldReg _ _ | .orReg _ _ | .andReg _ _ | .xorReg _ _ => []
  | .addReg _ _ | .sub _ _ | .shr _ _ | .subn _ _ | .shl _ _ | .rnd _ _ => []
  | .ldI _ | .addI _ | .ldF _ | .ldVxDt _ | .ldVxK _ | .ldDtVx _ | .ldStVx _ => []

/-- The instructions that write VF as a flag (42_alu.md R133). -/
def writesFlag : Instr → Bool
  | .addReg _ _ | .sub _ _ | .shr _ _ | .subn _ _ | .shl _ _ | .drw _ _ _ => true
  | .cls | .ret | .nop | .jp _ | .call _ | .ldI _ | .jpV0 _ => false
  | .seImm _ _ | .sneImm _ _ | .seReg _ _ | .sneReg _ _ | .skp _ | .sknp _ => false
  | .ldImm _ _ | .addImm _ _ | .rnd _ _ | .ldReg _ _ | .orReg _ _ | .andReg _ _ | .xorReg _ _ => false
  | .ldVxDt _ | .ldVxK _ | .ldDtVx _ | .ldStVx _ | .addI _ | .ldF _ | .ldB _ | .storeRegs _ | .loadRegs _ => false

/-! ## The sprite of Dxyn, pixel by pixel -/

/-- A set bit of the sprite lands on this pixel: row r of n, column col of 8, bit 7 the leftmost, coordinates wrapped
(44_display.md R151, R152, R153). -/
def SpriteCovers (s : State) (x y : Reg) (n : RowCount) (p : Pixel) : Prop :=
  ∃ r col : Nat, r < n.val ∧ col < 8 ∧ (Memory.read s.mem (s.base + r)).getLsbD (7 - col) = true ∧
    p.1.val = ((s.readV x).toNat + col) % 64 ∧ p.2.val = ((s.readV y).toNat + r) % 32

/-- The rows of the sprite lie in memory; a sprite of no rows is not checked (R151). -/
def SpriteInRange (s : State) (n : RowCount) : Prop := n = 0 ∨ s.base + n.val ≤ 0x1000

/-! ## Several pushes and pops -/

/-- Push each of the words in turn (41_control_flow.md R111). -/
def pushAll : List Word → State → Except Fatal State
  | [], s => .ok s
  | w :: ws, s =>
    match s.push w with
    | .ok t => pushAll ws t
    | .error f => .error f

/-- Pop this many words, the first popped first. -/
def popAll : Nat → State → Except Fatal (List Word × State)
  | 0, s => .ok ([], s)
  | n + 1, s =>
    match s.pop with
    | .error f => .error f
    | .ok (w, t) =>
      match popAll n t with
      | .ok (ws, u) => .ok (w :: ws, u)
      | .error f => .error f

end Sys2Proof.Machine
end

