-- ==== Sys2Proof/Certificates/Slice0/Obligations.lean ====
section
/-! DEFINITION. The statements for the provers, from the numbered rules of spec/. `Frame`, `HaltsWith`, `SpriteCovers`
and the tables of writes and causes are defined in Sys2Proof/Safety.lean.

Every `HaltsWith` clause (only the status changes, to HALTED with this cause and info) follows the spec's decisions D6
and D7 (log entry 8). Two conventions hold for every statement about `exec`. Its state is the one at the START of the
tick, PC = A, and `exec` is the execution alone: that the core is RUNNING is checked by the call
(StepRunsDecodedInstruction, HaltedCoreAcceptsOnlyResetAndDisplay), so these statements need no premise on the status.
And every `Frame` clause follows 40_tick_cycle.md R97, which the spec marks as its own decision D21 (log entry 13).
Several statements give the instruction's word as a number too. -/

open Sys2Proof Sys2Proof.Machine

/-! ## Encoding -/

/-- Decoding an encoded instruction gives it back, with every operand at every value its field admits, as a word and as
the two bytes the decoder consumes (30_encoding.md sections 1 to 5). -/
def Obligations.DecodeOfEncodeIsIdentity : Prop :=
  ∀ (i : Instr) (rest : List Byte),
    decodeWord (encode i) = .ok i ∧ decodeBytes (encodeBytes i ++ rest) = .ok (i, rest)

/-- A word that decodes is the encoding of what it decodes to: no bit of a defined word is dropped, so the opcode a fault
record shows is the fetched word. -/
def Obligations.DecodedWordReencodes : Prop :=
  ∀ (w : Word) (i : Instr), decodeWord w = .ok i → encode i = w

/-- Decoding agrees with the match / mask pairs the spec prints: a decoded word matches its instruction's row, no word
matches two rows, and the words that match no row are exactly the undefined ones. -/
def Obligations.DecoderFollowsOpcodeTable : Prop :=
  ∀ w : Word,
    (∀ i, decodeWord w = .ok i → opcodeRow i ∈ opcodeRows ∧ (opcodeRow i).covers w = true) ∧
      (∀ r ∈ opcodeRows, ∀ q ∈ opcodeRows, r.covers w = true → q.covers w = true → r = q) ∧
      ((∀ r ∈ opcodeRows, r.covers w = false) ↔ decodeWord w = .error (.undefinedOpcode w))

/-- A word of each format, written out from the spec's encoding, decodes to its instruction (a sanity statement). -/
def Obligations.SampleWordsDecode : Prop :=
  decodeWord 0b0000000011101110 = .ok .ret ∧ decodeWord 0b0010001100000000 = .ok (.call 0x300) ∧
    decodeWord 0b0011001100101010 = .ok (.seImm 3 0x2A) ∧ decodeWord 0b1000000100100101 = .ok (.sub 1 2) ∧
    decodeWord 0b1101000000010101 = .ok (.drw 0 1 5) ∧ decodeWord 0b1111001001100101 = .ok (.loadRegs 2) ∧
    decodeWord 0b0101000100100001 = .error (.undefinedOpcode 0x5121)

/-! ## The tick -/

/-- A tick of a RUNNING core whose PC is at most 0xFFE runs the instruction its two bytes at PC decode to: the step is
`exec` of it on the state at PC = A, once the call itself is taken off the list of pending calls (the MODEL's own, log
entry 3). -/
def Obligations.StepRunsDecodedInstruction : Prop :=
  ∀ (s : State) (rest : List HostCall) (i : Instr),
    TickIsNext s rest → s.Running → s.pc.toNat ≤ 0xFFE → decodeWord s.wordAtPc = .ok i →
      step s = exec i { s with calls := rest }

/-- A word that matches no row of the opcode map halts the core with UNDEFINED_OPCODE before any effect: only the status
changes, and the record names the address and the word (decisions D6, D7). -/
def Obligations.UndefinedWordHalts : Prop :=
  ∀ (s : State) (rest : List HostCall),
    TickIsNext s rest → s.Running → s.pc.toNat ≤ 0xFFE → (∀ r ∈ opcodeRows, r.covers s.wordAtPc = false) →
      step s = .next { s with
        calls := rest, status := .halted ⟨.undefinedOpcode, s.pc, some s.wordAtPc, s.wordAtPc.toNat⟩ }

/-- A fetch past 0xFFF halts the core with FETCH_OUT_OF_RANGE: nothing wraps, no word is recorded, and the recorded
address is the first one above 0xFFF (decisions D7, D23). -/
def Obligations.FetchPastTopHalts : Prop :=
  ∀ (s : State) (rest : List HostCall),
    TickIsNext s rest → s.Running → 0xFFE < s.pc.toNat →
      step s = .next { s with
        calls := rest, status := .halted ⟨.fetchOutOfRange, s.pc, none, max s.pc.toNat 0x1000⟩ }

/-- From RUNNING every tick has a next state: a RUNNING one, or the state at entry HALTED. It never blocks. -/
def Obligations.RunningTickAlwaysCompletes : Prop :=
  ∀ (s : State) (rest : List HostCall), TickIsNext s rest → s.Running →
    ∃ t, step s = .next t ∧ (t.Running ∨ ∃ r, t = { s with calls := rest, status := .halted r })

/-- Fatal conditions of an instruction are precise: only the status changes, the record names the instruction's address
and word, and its cause is one the spec lists for that instruction (decisions D6, D7). -/
def Obligations.InstructionFaultsArePrecise : Prop :=
  ∀ (i : Instr) (s t : State) (r : FaultRecord), s.Running → exec i s = .next t → t.status = .halted r →
    t = { s with status := .halted r } ∧ r.pc = s.pc ∧ r.opcode = some (encode i) ∧ r.cause ∈ causesRaised i

/-- What every instruction leaves unchanged: the registers outside its row of the spec's table of register writes, and
every part of the state that no rule lets it write (decision D21). -/
def Obligations.InstructionsWriteOnlyWhatTheTablesSay : Prop :=
  ∀ (i : Instr) (s t : State), exec i s = .next t →
    Frame (regsWritten i) (partsWritten i ++ (if causesRaised i = [] then [] else [.runStatus])) s t

/-- Only Cxnn reads the draw: every other instruction does the same whatever bytes are drawn (decision D2; the counter is
the MODEL's own, log entry 2). -/
def Obligations.OnlyRandomReadsTheDraw : Prop :=
  ∀ (i : Instr) (s t : State) (d : Nat), (∀ x nn, i ≠ .rnd x nn) → exec i s = .next t →
    exec i { s with draws := d } = .next { t with draws := d }

/-! ## Invariants -/

/-- Every step keeps the machine's invariant: memory in canonical form, PC at most 0x10FE, stack entries at most 0x1000. -/
def Obligations.StepKeepsMachineInvariant : Prop :=
  ∀ s t : State, s.Inv → step s = .next t → t.Inv

/-- Every step keeps the fault record true of the state it stands in. -/
def Obligations.StepKeepsHaltRecordSound : Prop :=
  ∀ s t : State, s.HaltRecordSound → step s = .next t → t.HaltRecordSound

/-- The state after reset meets both invariants. -/
def Obligations.ResetMeetsInvariants : Prop :=
  State.reset.Inv ∧ State.reset.HaltRecordSound

/-- Two memories in canonical form that read alike at every address are the same data. -/
def Obligations.CanonicalMemoryIsFixedByItsReads : Prop :=
  ∀ m n : Memory, Memory.wf m → Memory.wf n → (∀ a, Memory.read m a = Memory.read n a) → m = n

/-! ## Reset and the host's calls -/

/-- The reset values of the spec's table, the font at its default bytes (general knowledge by the spec's own word, log
entry 1) and RUNNING (decision D15). -/
def Obligations.ResetStateHoldsResetValues : Prop :=
  let s := State.reset
  (∀ x, s.readV x = 0) ∧ s.i = 0 ∧ s.pc = 0x200 ∧ s.dt = 0 ∧ s.st = 0 ∧ (∀ k : Fin 16, s.stack[k] = 0) ∧ s.sp = 0 ∧
    (∀ p, Display.lit s.disp p = false) ∧ (∀ k : Fin 16, s.keys[k] = false) ∧ s.Running ∧
    fontRom.length = 80 ∧ (∀ k (h : k < fontRom.length), Memory.read s.mem k = fontRom[k]) ∧
    ∀ a, 0x50 ≤ a → Memory.read s.mem a = 0

/-- `reset` is accepted in every status and leaves the constructed state, whatever the state before it; the MODEL's own
count of draws and the calls still to come are not the core's and stay (log entries 2 and 3; decision D15). -/
def Obligations.ResetCallRestoresConstructedState : Prop :=
  ∀ (s : State) (rest : List HostCall), s.calls = .reset :: rest →
    step s = .next { State.reset with draws := s.draws, calls := rest }

/-- A HALTED core has no transition for `tick`, `tick_timers`, `key_down` and `load`; `get_display` changes nothing and
`reset` leaves it RUNNING (decision D24). -/
def Obligations.HaltedCoreAcceptsOnlyResetAndDisplay : Prop :=
  ∀ (s : State) (r : FaultRecord) (rest : List HostCall), s.status = .halted r →
    (TickIsNext s rest → step s = .fault (.coreHalted r)) ∧
      (s.calls = .tickTimers :: rest → step s = .fault (.coreHalted r)) ∧
      (∀ index pressed, s.calls = .keyDown index pressed :: rest → step s = .fault (.coreHalted r)) ∧
      (∀ data, s.calls = .load data :: rest → step s = .fault (.coreHalted r)) ∧
      (s.calls = .getDisplay :: rest → step s = .next { s with calls := rest }) ∧
      (s.calls = .reset :: rest → ∃ t, step s = .next t ∧ t.Running)

/-- `tick_timers` on a RUNNING core: each timer above 0 goes down by 1, a timer at 0 stays, the beep is returned exactly
when ST was 1, and nothing else changes. -/
def Obligations.TickTimersCountsDownAndBeeps : Prop :=
  ∀ (s : State) (rest : List HostCall), s.calls = .tickTimers :: rest → s.Running →
    ∃ t, step s = .next t ∧ t.dt.toNat = s.dt.toNat - 1 ∧ t.st.toNat = s.st.toNat - 1 ∧
      callOutput .tickTimers s t = .beep (decide (s.st = 1)) ∧ t.pc = s.pc ∧ t.calls = rest ∧
      Frame [] [.delay, .sound, .calls] s t

/-- n calls of `tick_timers` take n off each timer and stop at 0, and the beep comes on exactly the call that takes ST
from 1 to 0. -/
def Obligations.TimersReachZeroAndStay : Prop :=
  ∀ (n : Nat) (s : State),
    (tickTimers^[n] s).dt.toNat = s.dt.toNat - n ∧ (tickTimers^[n] s).st.toNat = s.st.toNat - n ∧
      (beep (tickTimers^[n] s) = true ↔ s.st.toNat = n + 1)

/-- `key_down` on a RUNNING core sets one key's level and nothing else; an index above 15 is fatal and changes only the
status (decisions D6 and D7, log entries 8 and 17). -/
def Obligations.KeyDownSetsOneLevel : Prop :=
  ∀ (s : State) (rest : List HostCall) (index : Nat) (pressed : Bool),
    s.calls = .keyDown index pressed :: rest → s.Running →
      (index ≤ 15 → ∃ t, step s = .next t ∧
        (∀ k : Fin 16, t.keys[k] = if k.val = index then pressed else s.keys[k]) ∧ t.pc = s.pc ∧ t.calls = rest ∧
        Frame [] [.keypad, .calls] s t) ∧
      (15 < index → HaltsWith { s with calls := rest } .keyEventIndexOutOfRange index (step s))

/-- `get_display` returns the 2048 pixels at flat index px + 64*py and changes no state, in RUNNING and in HALTED. -/
def Obligations.GetDisplayReturnsPixels : Prop :=
  ∀ (s : State) (rest : List HostCall), s.calls = .getDisplay :: rest →
    step s = .next { s with calls := rest } ∧
      ∃ pixels, callOutput .getDisplay s { s with calls := rest } = .display pixels ∧ pixels.length = 2048 ∧
        ∀ p : Pixel, pixels[p.1.val + 64 * p.2.val]? = some (Display.lit s.disp p)

/-- `load` copies the payload to 0x200 and changes nothing else; a payload of more than 3584 bytes is fatal and writes no
byte (decision D14). -/
def Obligations.LoadCopiesImage : Prop :=
  ∀ (s : State) (rest : List HostCall) (data : List Byte),
    s.calls = .load data :: rest → s.Running → Memory.wf s.mem →
      (data.length ≤ 3584 → ∃ t, step s = .next t ∧
        (∀ k (h : k < data.length), Memory.read t.mem (0x200 + k) = data[k]) ∧
        (∀ a, a < 0x200 ∨ 0x200 + data.length ≤ a → Memory.read t.mem a = Memory.read s.mem a) ∧
        t.pc = s.pc ∧ t.calls = rest ∧ Frame [] [.memory, .calls] s t) ∧
      (3584 < data.length → HaltsWith { s with calls := rest } .loadTooLarge data.length (step s))

/-! ## Control flow -/

/-- 00EE: PC takes the popped entry as it is, SP goes down by 1, the entry keeps its value; with SP = 0 it is fatal and
changes nothing else. -/
def Obligations.ReturnPopsTopEntry : Prop :=
  (encode .ret).toNat = 0x00EE ∧ ∀ s : State,
    (∀ h : 1 ≤ s.sp.val, ∃ t, exec .ret s = .next t ∧ t.pc = s.stack[s.sp.val - 1]'(by omega) ∧
      t.sp.val = s.sp.val - 1 ∧ t.stack = s.stack ∧ Frame [] [.stack] s t) ∧
    (s.sp.val = 0 → HaltsWith s .stackUnderflow 0 (exec .ret s))

/-- 1nnn: PC is exactly nnn; 0000: PC is A + 2; neither changes anything else. -/
def Obligations.JumpAndNoOperationMoveOnlyPc : Prop :=
  ∀ (nnn : Addr12) (s : State),
    (encode (.jp nnn)).toNat = 0x1000 + nnn.toNat ∧ (encode .nop).toNat = 0x0000 ∧
    (∃ t, exec (.jp nnn) s = .next t ∧ t.pc.toNat = nnn.toNat ∧ Frame [] [] s t) ∧
    ∃ t, exec .nop s = .next t ∧ t.pc = s.pc + 2 ∧ Frame [] [] s t

/-- 2nnn: A + 2 goes to stack[SP], SP up by 1, PC is nnn, the other entries stay; with SP = 16 it is fatal and changes
nothing else. -/
def Obligations.CallPushesReturnAddress : Prop :=
  ∀ (nnn : Addr12) (s : State),
    (encode (.call nnn)).toNat = 0x2000 + nnn.toNat ∧
    (s.sp.val ≤ 15 → ∃ t, exec (.call nnn) s = .next t ∧ t.pc.toNat = nnn.toNat ∧ t.sp.val = s.sp.val + 1 ∧
      (∀ k : Fin 16, t.stack[k] = if k.val = s.sp.val then s.pc + 2 else s.stack[k]) ∧ Frame [] [.stack] s t) ∧
    (s.sp.val = 16 → HaltsWith s .stackOverflow 16 (exec (.call nnn) s))

/-- Bnnn: PC is the exact sum of nnn and V0, not masked to 12 bits (decision D12). -/
def Obligations.JumpWithOffsetIsExactSum : Prop :=
  ∀ (nnn : Addr12) (s : State),
    ∃ t, exec (.jpV0 nnn) s = .next t ∧ t.pc.toNat = nnn.toNat + (s.readV 0).toNat ∧ Frame [] [] s t

/-- 3xnn and 4xnn: PC is A + 4 when the condition holds and A + 2 otherwise; nothing else changes. -/
def Obligations.SkipsOnImmediate : Prop :=
  ∀ (x : Reg) (nn : Byte) (s : State),
    (encode (.seImm x nn)).toNat = 0x3000 + x.val * 0x100 + nn.toNat ∧
    (encode (.sneImm x nn)).toNat = 0x4000 + x.val * 0x100 + nn.toNat ∧
    (∃ t, exec (.seImm x nn) s = .next t ∧ t.pc = (if s.readV x = nn then s.pc + 4 else s.pc + 2) ∧ Frame [] [] s t) ∧
    ∃ t, exec (.sneImm x nn) s = .next t ∧ t.pc = (if s.readV x = nn then s.pc + 2 else s.pc + 4) ∧ Frame [] [] s t

/-- 5xy0 and 9xy0: PC is A + 4 when the condition holds and A + 2 otherwise (so with x = y the first always skips and the
second never does); nothing else changes. -/
def Obligations.SkipsOnRegisters : Prop :=
  ∀ (x y : Reg) (s : State),
    (encode (.seReg x y)).toNat = 0x5000 + x.val * 0x100 + y.val * 0x10 ∧
    (encode (.sneReg x y)).toNat = 0x9000 + x.val * 0x100 + y.val * 0x10 ∧
    (∃ t, exec (.seReg x y) s = .next t ∧ t.pc = (if s.readV x = s.readV y then s.pc + 4 else s.pc + 2) ∧
      Frame [] [] s t) ∧
    ∃ t, exec (.sneReg x y) s = .next t ∧ t.pc = (if s.readV x = s.readV y then s.pc + 2 else s.pc + 4) ∧
      Frame [] [] s t

/-- Pushing N addresses and popping N returns them in reverse order and leaves the depth as it was; a push beyond 16
entries is a fatal overflow. -/
def Obligations.StackIsLastInFirstOut : Prop :=
  ∀ (ws : List Word) (s : State),
    (s.sp.val + ws.length ≤ 16 →
      ∃ t u, pushAll ws s = .ok t ∧ popAll ws.length t = .ok (ws.reverse, u) ∧ u.sp = s.sp) ∧
    (16 < s.sp.val + ws.length → pushAll ws s = .error ⟨.stackOverflow, 16⟩)

/-- A run that sits at a jump to itself, or at Fx0A with no key down, stays RUNNING in the very same state for any number
of ticks. -/
def Obligations.SelfJumpAndKeyWaitAreFixedPoints : Prop :=
  ∀ (n : Nat) (s : State), s.calls = [] → s.Running → s.pc.toNat ≤ 0xFFE →
    ((∃ nnn, decodeWord s.wordAtPc = .ok (.jp nnn) ∧ nnn.toNat = s.pc.toNat) ∨
      ((∃ x, decodeWord s.wordAtPc = .ok (.ldVxK x)) ∧ ∀ k : Fin 16, s.keys[k] = false)) →
    Sys2Proof.core.run n s = .next s ∧ SafeRun n s

/-! ## Arithmetic -/

/-- 6xnn, 7xnn and 8xy0: the new Vx, with 7xnn wrapping and no flag; nothing else changes, VF included unless x = 0xF. -/
def Obligations.LoadsAndImmediateAdd : Prop :=
  ∀ (x y : Reg) (nn : Byte) (s : State),
    (encode (.ldImm x nn)).toNat = 0x6000 + x.val * 0x100 + nn.toNat ∧
    (encode (.addImm x nn)).toNat = 0x7000 + x.val * 0x100 + nn.toNat ∧
    (encode (.ldReg x y)).toNat = 0x8000 + x.val * 0x100 + y.val * 0x10 ∧
    (∃ t, exec (.ldImm x nn) s = .next t ∧ t.readV x = nn ∧ t.pc = s.pc + 2 ∧ Frame [x] [] s t) ∧
    (∃ t, exec (.addImm x nn) s = .next t ∧ (t.readV x).toNat = ((s.readV x).toNat + nn.toNat) % 256 ∧
      t.pc = s.pc + 2 ∧ Frame [x] [] s t) ∧
    ∃ t, exec (.ldReg x y) s = .next t ∧ t.readV x = s.readV y ∧ t.pc = s.pc + 2 ∧ Frame [x] [] s t

/-- 8xy1, 8xy2, 8xy3: each bit of Vx is the OR, AND, XOR of the operands' bits; VF is not reset (decision D21). -/
def Obligations.BitwiseOperations : Prop :=
  ∀ (x y : Reg) (s : State),
    (∃ t, exec (.orReg x y) s = .next t ∧
      (∀ k, (t.readV x).getLsbD k = ((s.readV x).getLsbD k || (s.readV y).getLsbD k)) ∧
      t.pc = s.pc + 2 ∧ Frame [x] [] s t) ∧
    (∃ t, exec (.andReg x y) s = .next t ∧
      (∀ k, (t.readV x).getLsbD k = ((s.readV x).getLsbD k && (s.readV y).getLsbD k)) ∧
      t.pc = s.pc + 2 ∧ Frame [x] [] s t) ∧
    ∃ t, exec (.xorReg x y) s = .next t ∧
      (∀ k, (t.readV x).getLsbD k = ((s.readV x).getLsbD k ^^ (s.readV y).getLsbD k)) ∧
      t.pc = s.pc + 2 ∧ Frame [x] [] s t

/-- 8xy4: VF is 1 iff the exact sum exceeds 255, and Vx is the sum modulo 256 unless x = 0xF, where the flag is the final
value (decision D5). -/
def Obligations.AddWritesCarry : Prop :=
  ∀ (x y : Reg) (s : State),
    ∃ t, exec (.addReg x y) s = .next t ∧
      t.readV VF = (if 255 < (s.readV x).toNat + (s.readV y).toNat then 1 else 0) ∧
      (x ≠ VF → (t.readV x).toNat = ((s.readV x).toNat + (s.readV y).toNat) % 256) ∧
      t.pc = s.pc + 2 ∧ Frame [x, VF] [] s t

/-- 8xy5 and 8xy7: VF is the no-borrow of the comparison before the subtraction, and Vx the wrapped difference unless
x = 0xF, where the flag is the final value (decision D5). -/
def Obligations.SubtractionsWriteNoBorrow : Prop :=
  ∀ (x y : Reg) (s : State),
    (∃ t, exec (.sub x y) s = .next t ∧
      t.readV VF = (if (s.readV y).toNat ≤ (s.readV x).toNat then 1 else 0) ∧
      (x ≠ VF → (t.readV x).toNat = ((s.readV x).toNat + 256 - (s.readV y).toNat) % 256) ∧
      t.pc = s.pc + 2 ∧ Frame [x, VF] [] s t) ∧
    ∃ t, exec (.subn x y) s = .next t ∧
      t.readV VF = (if (s.readV x).toNat ≤ (s.readV y).toNat then 1 else 0) ∧
      (x ≠ VF → (t.readV x).toNat = ((s.readV y).toNat + 256 - (s.readV x).toNat) % 256) ∧
      t.pc = s.pc + 2 ∧ Frame [x, VF] [] s t

/-- 8xy6 and 8xyE: Vx is shifted by one whatever y is, and VF is the bit shifted out of the old Vx, which is the final
value when x = 0xF (decisions D5 and D22). -/
def Obligations.ShiftsWriteShiftedOutBit : Prop :=
  ∀ (x y : Reg) (s : State),
    (∃ t, exec (.shr x y) s = .next t ∧ (t.readV VF).toNat = (s.readV x).toNat % 2 ∧
      (x ≠ VF → (t.readV x).toNat = (s.readV x).toNat / 2) ∧ t.pc = s.pc + 2 ∧ Frame [x, VF] [] s t) ∧
    ∃ t, exec (.shl x y) s = .next t ∧ (t.readV VF).toNat = (s.readV x).toNat / 128 ∧
      (x ≠ VF → (t.readV x).toNat = 2 * (s.readV x).toNat % 256) ∧ t.pc = s.pc + 2 ∧ Frame [x, VF] [] s t

/-- Cxnn: Vx is the draw masked with nn, one draw is used up, and over all draws the possible results are exactly the
bytes inside the mask (decision D2; the draw is the free value of log entry 2, and nothing rests on what it is). -/
def Obligations.RandomByteIsMasked : Prop :=
  ∀ (x : Reg) (nn : Byte) (s : State),
    (∃ t, exec (.rnd x nn) s = .next t ∧ t.readV x = Config.randomByte s.draws &&& nn ∧ t.draws = s.draws + 1 ∧
      t.pc = s.pc + 2 ∧ Frame [x] [.draws] s t) ∧
    ∀ v : Byte, (∃ rand, (randomBody rand x nn s).readV x = v) ↔ v &&& ~~~nn = 0

/-- Every instruction that writes VF as a flag leaves it 0 or 1 whenever it completes. -/
def Obligations.FlagWritersLeaveZeroOrOne : Prop :=
  ∀ (i : Instr) (s t : State), writesFlag i = true → s.Running → exec i s = .next t → t.Running →
    t.readV VF = 0 ∨ t.readV VF = 1

/-- Under SHIFT_SRC_VY = true the shifts read Vy, and under LDST_INC_I = true Fx55 and Fx65 advance I by x + 1: the
historical variants, which this hardware does not use (general knowledge by the spec's own word, log entry 4). -/
def Obligations.HistoricalVariantsFollowParameters : Prop :=
  ∀ (p : Config.Params) (x y : Reg) (s : State),
    (p.shiftSrcVy = true →
      ((shiftRightBody p x y s).readV VF).toNat = (s.readV y).toNat % 2 ∧
      (x ≠ VF → ((shiftRightBody p x y s).readV x).toNat = (s.readV y).toNat / 2) ∧
      ((shiftLeftBody p x y s).readV VF).toNat = (s.readV y).toNat / 128 ∧
      (x ≠ VF → ((shiftLeftBody p x y s).readV x).toNat = 2 * (s.readV y).toNat % 256)) ∧
    (p.ldstIncI = true →
      (∀ t, storeRegsBody p x s = .ok t → t.i.toNat = (s.i.toNat + x.val + 1) % 65536) ∧
      ∀ t, loadRegsBody p x s = .ok t → t.i.toNat = (s.i.toNat + x.val + 1) % 65536)

/-- Under LOW_GUARD = true a fetch or a store below 0x200, and a read in 0x050..0x1FF, is fatal with the first failing
address (decision D10; this hardware has LOW_GUARD = false, log entry 4). -/
def Obligations.LowGuardMakesLowAccessesFatal : Prop :=
  ∀ (p : Config.Params) (s : State), p.lowGuard = true →
    (s.pc.toNat < 0x200 → fetch p s = .error ⟨.lowMemoryAccess, s.pc.toNat⟩) ∧
    (∀ x, s.base < 0x200 → bcdBody p x s = .error ⟨.lowMemoryAccess, s.base⟩ ∧
      storeRegsBody p x s = .error ⟨.lowMemoryAccess, s.base⟩) ∧
    (∀ x, s.base ≤ 0x04F → s.base + x.val ≤ 0x04F → ∃ t, loadRegsBody p x s = .ok t) ∧
    (∀ x k, k ≤ x.val → 0x050 ≤ s.base + k → s.base + k < 0x200 → (∀ j < k, s.base + j < 0x050) →
      loadRegsBody p x s = .error ⟨.lowMemoryAccess, s.base + k⟩) ∧
    ∀ x y n k, k < n.val → 0x050 ≤ s.base + k → s.base + k < 0x200 → (∀ j < k, s.base + j < 0x050) →
      drawBody p x y n s = .error ⟨.lowMemoryAccess, s.base + k⟩

/-! ## Index register and memory -/

/-- Annn: I is nnn; nothing else changes. -/
def Obligations.LoadIndexImmediate : Prop :=
  ∀ (nnn : Addr12) (s : State),
    (encode (.ldI nnn)).toNat = 0xA000 + nnn.toNat ∧
    ∃ t, exec (.ldI nnn) s = .next t ∧ t.i.toNat = nnn.toNat ∧ t.pc = s.pc + 2 ∧ Frame [] [.index] s t

/-- Fx1E wraps within 16 bits and leaves VF unchanged; Fx29 multiplies the unmasked Vx by 5 (decisions D21 and D26). -/
def Obligations.IndexArithmetic : Prop :=
  ∀ (x : Reg) (s : State),
    (∃ t, exec (.addI x) s = .next t ∧ t.i.toNat = (s.i.toNat + (s.readV x).toNat) % 65536 ∧ t.pc = s.pc + 2 ∧
      Frame [] [.index] s t) ∧
    ∃ t, exec (.ldF x) s = .next t ∧ t.i.toNat = 5 * (s.readV x).toNat ∧ t.pc = s.pc + 2 ∧ Frame [] [.index] s t

/-- Fx33: the hundreds, tens and ones of Vx go to I, I + 1, I + 2 and no other byte changes; past 0xFFF it is fatal with
no byte written; under LOW_GUARD = true it is fatal below 0x200 (decision D10; this hardware has LOW_GUARD = false, log
entry 4). -/
def Obligations.StoreDecimalDigits : Prop :=
  ∀ (x : Reg) (s : State), Memory.wf s.mem →
    (encode (.ldB x)).toNat = 0xF033 + x.val * 0x100 ∧
    (s.base + 2 ≤ 0xFFF → ∃ t, exec (.ldB x) s = .next t ∧
      (Memory.read t.mem s.base).toNat = (s.readV x).toNat / 100 ∧
      (Memory.read t.mem (s.base + 1)).toNat = (s.readV x).toNat / 10 % 10 ∧
      (Memory.read t.mem (s.base + 2)).toNat = (s.readV x).toNat % 10 ∧
      (∀ a, a < s.base ∨ s.base + 2 < a → Memory.read t.mem a = Memory.read s.mem a) ∧
      t.pc = s.pc + 2 ∧ Frame [] [.memory] s t) ∧
    (0xFFF < s.base + 2 → HaltsWith s .dataOutOfRange (max s.base 0x1000) (exec (.ldB x) s)) ∧
    ∀ p : Config.Params, p.lowGuard = true → s.base < 0x200 → bcdBody p x s = .error ⟨.lowMemoryAccess, s.base⟩

/-- Fx55: V0..Vx go to I..I + x, no other byte changes and I stays; past 0xFFF it is fatal with no byte written (decisions
D22 and D23). -/
def Obligations.StoreRegisterBlock : Prop :=
  ∀ (x : Reg) (s : State), Memory.wf s.mem →
    (s.base + x.val ≤ 0xFFF → ∃ t, exec (.storeRegs x) s = .next t ∧
      (∀ k : Reg, k ≤ x → Memory.read t.mem (s.base + k.val) = s.readV k) ∧
      (∀ a, a < s.base ∨ s.base + x.val < a → Memory.read t.mem a = Memory.read s.mem a) ∧
      t.pc = s.pc + 2 ∧ Frame [] [.memory] s t) ∧
    (0xFFF < s.base + x.val → HaltsWith s .dataOutOfRange (max s.base 0x1000) (exec (.storeRegs x) s))

/-- Fx65: V0..Vx take the bytes at I..I + x, VF included as an ordinary destination, and I stays; past 0xFFF it is fatal
with no register written (decisions D22 and D23). -/
def Obligations.LoadRegisterBlock : Prop :=
  ∀ (x : Reg) (s : State),
    (s.base + x.val ≤ 0xFFF → ∃ t, exec (.loadRegs x) s = .next t ∧
      (∀ k : Reg, k ≤ x → t.readV k = Memory.read s.mem (s.base + k.val)) ∧
      t.pc = s.pc + 2 ∧ Frame (upTo x) [] s t) ∧
    (0xFFF < s.base + x.val → HaltsWith s .dataOutOfRange (max s.base 0x1000) (exec (.loadRegs x) s))

/-- What Fx55 stored, Fx65 at the same I and x loads back into any registers. -/
def Obligations.StoreThenLoadRestoresRegisters : Prop :=
  ∀ (x : Reg) (s t u : State), Memory.wf s.mem → s.base + x.val ≤ 0xFFF → exec (.storeRegs x) s = .next t →
    u.mem = t.mem → u.i = t.i →
      ∃ w, exec (.loadRegs x) u = .next w ∧ ∀ k : Reg, w.readV k = if k ≤ x then s.readV k else u.readV k

/-- A word that Fx55 stores at A + 2 is the next word fetched: fetch sees every earlier store. -/
def Obligations.StoredInstructionIsFetchedNext : Prop :=
  ∀ (x : Reg) (s : State), Memory.wf s.mem → 1 ≤ x.val → s.base = s.pc.toNat + 2 → s.base + x.val ≤ 0xFFF →
    ∃ t, exec (.storeRegs x) s = .next t ∧ fetch hwParams t = .ok (opcodeOf (s.readV 0) (s.readV 1))

/-! ## Display -/

/-- 00E0: every pixel is false; nothing else changes. -/
def Obligations.ClearScreen : Prop :=
  (encode .cls).toNat = 0x00E0 ∧ ∀ s : State, ∃ t, exec .cls s = .next t ∧ (∀ p, Display.lit t.disp p = false) ∧ t.pc = s.pc + 2 ∧
    Frame [] [.display] s t

/-- Dxyn, pixel by pixel: exactly the pixels a set bit of the sprite lands on are toggled, coordinates wrapped, bit 7 the
leftmost (general knowledge by the spec's own word, decision D4), and VF is 1 iff one of them was lit, else 0. -/
def Obligations.DrawTogglesSpritePixels : Prop :=
  ∀ (x y : Reg) (n : RowCount) (s : State), SpriteInRange s n →
    ∃ t, exec (.drw x y n) s = .next t ∧
      (∀ p, SpriteCovers s x y n p → Display.lit t.disp p = !Display.lit s.disp p) ∧
      (∀ p, ¬ SpriteCovers s x y n p → Display.lit t.disp p = Display.lit s.disp p) ∧
      ((∃ p, SpriteCovers s x y n p ∧ Display.lit s.disp p = true) → t.readV VF = 1) ∧
      ((∀ p, SpriteCovers s x y n p → Display.lit s.disp p = false) → t.readV VF = 0) ∧
      t.pc = s.pc + 2 ∧ Frame [VF] [.display] s t

/-- Dxyn with a row past 0xFFF is fatal: no pixel and no register changes (decisions D6 and D23). -/
def Obligations.DrawOutOfRangeHalts : Prop :=
  ∀ (x y : Reg) (n : RowCount) (s : State), 1 ≤ n.val → 0xFFF < s.base + n.val - 1 →
    HaltsWith s .dataOutOfRange (max s.base 0x1000) (exec (.drw x y n) s)

/-- Drawing the same sprite twice at the same place restores the display, and the second draw reports a collision iff the
sprite covers a pixel that was dark before the first one: those are the pixels that are lit before the second. On a
display that is dark under the sprite this is R154's `iff the sprite has at least one set bit`, which holds there alone
(log entry 25). VF is no coordinate here, because the first draw writes it. -/
def Obligations.DrawTwiceRestoresDisplay : Prop :=
  ∀ (x y : Reg) (n : RowCount) (s : State), x ≠ VF → y ≠ VF → SpriteInRange s n →
    ∃ t u, exec (.drw x y n) s = .next t ∧ exec (.drw x y n) t = .next u ∧
      (∀ p, Display.lit u.disp p = Display.lit s.disp p) ∧
      (u.readV VF = 1 ↔ ∃ p, SpriteCovers s x y n p ∧ Display.lit s.disp p = false) ∧
      ((∀ p, Display.lit s.disp p = false) →
        (u.readV VF = 1 ↔ ∃ r < n.val, Memory.read s.mem (s.base + r) ≠ 0))

/-- The target pixels of one sprite are pairwise distinct, and there are as many as the sprite has set bits. -/
def Obligations.SpriteTargetsAreDistinct : Prop :=
  ∀ (px0 py0 : Nat) (rows : List Byte), rows.length ≤ 15 →
    (spriteTargets px0 py0 rows).Nodup ∧
      (spriteTargets px0 py0 rows).length = (rows.map fun row => (List.range 8).countP row.getLsbD).sum

/-! ## Keys and timers -/

/-- Ex9E and ExA1: with Vx at most 15 they skip on the level of key Vx; above 15 they are fatal (decision D9). -/
def Obligations.KeySkipsReadLevel : Prop :=
  ∀ (x : Reg) (s : State),
    (∀ h : (s.readV x).toNat ≤ 15,
      (∃ t, exec (.skp x) s = .next t ∧
        t.pc = (if s.keys[(s.readV x).toNat]'(by omega) = true then s.pc + 4 else s.pc + 2) ∧ Frame [] [] s t) ∧
      ∃ t, exec (.sknp x) s = .next t ∧
        t.pc = (if s.keys[(s.readV x).toNat]'(by omega) = true then s.pc + 2 else s.pc + 4) ∧ Frame [] [] s t) ∧
    (15 < (s.readV x).toNat →
      HaltsWith s .keyIndexOutOfRange (s.readV x).toNat (exec (.skp x) s) ∧
      HaltsWith s .keyIndexOutOfRange (s.readV x).toNat (exec (.sknp x) s))

/-- Fx07 copies DT to Vx and leaves DT; Fx15 copies Vx to DT. -/
def Obligations.DelayTimerMoves : Prop :=
  ∀ (x : Reg) (s : State),
    (encode (.ldVxDt x)).toNat = 0xF007 + x.val * 0x100 ∧ (encode (.ldDtVx x)).toNat = 0xF015 + x.val * 0x100 ∧
    (∃ t, exec (.ldVxDt x) s = .next t ∧ t.readV x = s.dt ∧ t.pc = s.pc + 2 ∧ Frame [x] [] s t) ∧
    ∃ t, exec (.ldDtVx x) s = .next t ∧ t.dt = s.readV x ∧ t.pc = s.pc + 2 ∧ Frame [] [.delay] s t

/-- Fx18 copies Vx to ST; the next `tick_timers` beeps iff that value is 1, and a tick of Fx18 returns no beep (decision
D16). -/
def Obligations.SoundTimerWrite : Prop :=
  ∀ (x : Reg) (s : State),
    ∃ t, exec (.ldStVx x) s = .next t ∧ t.st = s.readV x ∧ t.pc = s.pc + 2 ∧ Frame [] [.sound] s t ∧
      (beep t = true ↔ (s.readV x).toNat = 1) ∧ callOutput .tick s t = .status s.status

/-- Fx0A: with a key down, the lowest one's index goes to Vx and PC is A + 2 in this very tick; with none down, the state
is unchanged, PC = A included (decision D17). -/
def Obligations.WaitForKey : Prop :=
  ∀ (x : Reg) (s : State),
    (∀ k : Reg, s.keys[k] = true → (∀ j : Reg, j < k → s.keys[j] = false) →
      ∃ t, exec (.ldVxK x) s = .next t ∧ (t.readV x).toNat = k.val ∧ t.pc = s.pc + 2 ∧ Frame [x] [] s t) ∧
    ((∀ k : Reg, s.keys[k] = false) → exec (.ldVxK x) s = .next s)

/-! ## The parameters as an argument -/

/-- `reset` under any parameters stores FONT_ROM at 0x000..0x04F and 0x00 above it, in canonical form, and leaves every
other piece of state at its reset value (the parameter is the spec's decision D3 and RUNNING its decision D15; the count
of draws and the calls to come are the MODEL's own, log entries 2 and 3). -/
def Obligations.ResetStoresFontParameter : Prop :=
  ∀ (p : Config.Params) (s : State), ∃ t, hostCall p .reset s = .next t ∧
    (∀ k : Fin 80, Memory.read t.mem k.val = p.fontRom[k]) ∧ (∀ a, 0x50 ≤ a → Memory.read t.mem a = 0) ∧
    Memory.wf t.mem ∧ t = { State.reset with mem := t.mem, draws := s.draws, calls := s.calls }

/-- FONT_ROM acts at reset alone: every other call of the host does the same under every font, so no instruction reads
the parameter (decision D3). -/
def Obligations.FontParameterActsOnlyAtReset : Prop :=
  ∀ (p : Config.Params) (font : Vector Byte 80) (c : HostCall) (s : State), c ≠ .reset →
    hostCall { p with fontRom := font } c s = hostCall p c s

/-- A tick of a RUNNING core under any parameters: where the fetch is permitted it executes the decoded instruction under
those parameters, and under LOW_GUARD = true a fetch below 0x200 halts the core with LOW_MEMORY_ACCESS and no opcode
(decisions D7 and D10; this hardware has LOW_GUARD = false, log entry 4). -/
def Obligations.TickFollowsItsParameters : Prop :=
  ∀ (p : Config.Params) (s : State), s.Running →
    (∀ i, s.pc.toNat ≤ 0xFFE → p.lowGuard = false ∨ 0x200 ≤ s.pc.toNat → decodeWord s.wordAtPc = .ok i →
      hostCall p .tick s = execUnder p i s) ∧
    (p.lowGuard = true → s.pc.toNat < 0x200 →
      hostCall p .tick s = .next { s with status := .halted ⟨.lowMemoryAccess, s.pc, none, s.pc.toNat⟩ })
end

