-- ==== Sys2Proof/Laws/Decode.lean ====
section
/-! SUPPORT. The fields of the encoder's forms, so that no later proof unfolds a bit-vector append. -/

namespace Sys2Proof

@[simp] theorem opD1_formNnn (d : Nibble) (nnn : Addr12) : opD1 (formNnn d nnn) = d := by
  apply BitVec.eq_of_getLsbD_eq; intro i hi
  simp only [opD1, formNnn, BitVec.getLsbD_extractLsb', BitVec.getLsbD_append]
  simp [hi]

@[simp] theorem opNnn_formNnn (d : Nibble) (nnn : Addr12) : opNnn (formNnn d nnn) = nnn := by
  apply BitVec.eq_of_getLsbD_eq; intro i hi
  simp only [opNnn, formNnn, BitVec.getLsbD_extractLsb', BitVec.getLsbD_append]
  simp [hi]

@[simp] theorem opD1_formXnn (d : Nibble) (x : Reg) (nn : Byte) : opD1 (formXnn d x nn) = d := by
  apply BitVec.eq_of_getLsbD_eq; intro i hi
  simp only [opD1, formXnn, BitVec.getLsbD_extractLsb', BitVec.getLsbD_append]
  simp [hi, show ¬ 12 + i < 8 by omega, show ¬ 12 + i - 8 < 4 by omega, show 12 + i - 8 - 4 = i by omega]

@[simp] theorem opX_formXnn (d : Nibble) (x : Reg) (nn : Byte) : opX (formXnn d x nn) = x := by
  have h : (formXnn d x nn).extractLsb' 8 4 = nibbleOf x := by
    apply BitVec.eq_of_getLsbD_eq; intro i hi
    simp only [formXnn, BitVec.getLsbD_extractLsb', BitVec.getLsbD_append]
    simp [hi]
  simp only [opX, h, nibbleOf]

@[simp] theorem opNn_formXnn (d : Nibble) (x : Reg) (nn : Byte) : opNn (formXnn d x nn) = nn := by
  apply BitVec.eq_of_getLsbD_eq; intro i hi
  simp only [opNn, formXnn, BitVec.getLsbD_extractLsb', BitVec.getLsbD_append]
  simp [hi]

@[simp] theorem opD1_formXyn (d : Nibble) (x y : Reg) (n : Nibble) : opD1 (formXyn d x y n) = d := by
  apply BitVec.eq_of_getLsbD_eq; intro i hi
  simp only [opD1, formXyn, BitVec.getLsbD_extractLsb', BitVec.getLsbD_append]
  simp [hi, show ¬ 12 + i < 4 by omega, show ¬ 12 + i - 4 < 4 by omega, show ¬ 12 + i - 4 - 4 < 4 by omega,
    show 12 + i - 4 - 4 - 4 = i by omega]

@[simp] theorem opX_formXyn (d : Nibble) (x y : Reg) (n : Nibble) : opX (formXyn d x y n) = x := by
  have h : (formXyn d x y n).extractLsb' 8 4 = nibbleOf x := by
    apply BitVec.eq_of_getLsbD_eq; intro i hi
    simp only [formXyn, BitVec.getLsbD_extractLsb', BitVec.getLsbD_append]
    simp [hi, show ¬ 8 + i < 4 by omega, show ¬ 8 + i - 4 < 4 by omega, show 8 + i - 4 - 4 = i by omega]
  simp only [opX, h, nibbleOf]

@[simp] theorem opY_formXyn (d : Nibble) (x y : Reg) (n : Nibble) : opY (formXyn d x y n) = y := by
  have h : (formXyn d x y n).extractLsb' 4 4 = nibbleOf y := by
    apply BitVec.eq_of_getLsbD_eq; intro i hi
    simp only [formXyn, BitVec.getLsbD_extractLsb', BitVec.getLsbD_append]
    simp [hi]
  simp only [opY, h, nibbleOf]

@[simp] theorem opD4_formXyn (d : Nibble) (x y : Reg) (n : Nibble) : opD4 (formXyn d x y n) = n := by
  apply BitVec.eq_of_getLsbD_eq; intro i hi
  simp only [opD4, formXyn, BitVec.getLsbD_extractLsb', BitVec.getLsbD_append]
  simp [hi]

@[simp] theorem opN_formXyn (d : Nibble) (x y : Reg) (n : RowCount) : opN (formXyn d x y (nibbleOf n)) = n := by
  have h := opD4_formXyn d x y (nibbleOf n)
  simp only [opD4] at h
  rw [opN, h]
  rfl

/-- The bytes of a word give it back: the byte at the lower address is the high byte (R54). -/
@[simp] theorem opcodeOf_wordBytes (w : Word) : opcodeOf (w.extractLsb' 8 8) (w.extractLsb' 0 8) = w := by
  apply BitVec.eq_of_getLsbD_eq; intro i hi
  simp only [opcodeOf, BitVec.getLsbD_append, BitVec.getLsbD_extractLsb']
  by_cases h : i < 8
  · simp [h]
  · simp [h, show i - 8 < 8 by omega, show 8 + (i - 8) = i by omega]

/-- What decoding two bytes does, by what the word decodes to. -/
theorem decodeBytes_cons (hi lo : Byte) (rest : List Byte) :
    decodeBytes (hi :: lo :: rest) = (decodeWord (opcodeOf hi lo)).map fun i => (i, rest) := by
  simp only [decodeBytes]
  cases decodeWord (opcodeOf hi lo) <;> rfl

/-- The host's reading of a 16-bit table word is the decoder's. -/
theorem decodeTableWord_16 (w : Word) : decodeTableWord 16 w.toNat = (decodeWord w).toOption := by
  have hw : tableWord 16 w.toNat = w := by
    apply BitVec.eq_of_toNat_eq
    have := w.isLt
    rw [tableWord, BitVec.toNat_ofNat, Nat.mod_eq_of_lt (a := w.toNat) (by omega), Nat.mod_eq_of_lt (by omega)]
  simp only [decodeTableWord, wordBytes, hw, decodeBytes, opcodeOf_wordBytes]
  cases decodeWord w <;> rfl

/-! ### A row's mask on a form -/

theorem and_formNnn (d e : Nibble) (m n : Addr12) : formNnn d m &&& formNnn e n = formNnn (d &&& e) (m &&& n) := by
  apply BitVec.eq_of_getLsbD_eq; intro i hi
  simp only [formNnn, BitVec.getLsbD_and, BitVec.getLsbD_append]
  split <;> simp

theorem formXnn_eq (d : Nibble) (x : Reg) (nn : Byte) : formXnn d x nn = formNnn d (nibbleOf x ++ nn) := by
  apply BitVec.eq_of_getLsbD_eq; intro i hi
  simp only [formXnn, formNnn, BitVec.getLsbD_append]
  by_cases h : i < 8
  · simp [h, show i < 12 by omega]
  · by_cases h2 : i - 8 < 4
    · simp [h, h2, show i < 12 by omega]
    · simp [h, h2, show ¬ i < 12 by omega, show i - 8 - 4 = i - 12 by omega]

theorem formXyn_eq (d : Nibble) (x y : Reg) (n : Nibble) : formXyn d x y n = formXnn d x (nibbleOf y ++ n) := by
  apply BitVec.eq_of_getLsbD_eq; intro i hi
  simp only [formXyn, formXnn, BitVec.getLsbD_append]
  by_cases h : i < 4
  · simp [h, show i < 8 by omega]
  · by_cases h2 : i - 4 < 4
    · simp [h, h2, show i < 8 by omega]
    · simp [h, h2, show ¬ i < 8 by omega, show i - 4 - 4 = i - 8 by omega]

/-- Mask F000 leaves d1 of the form `nnn`. -/
theorem formNnn_and_F000 (d : Nibble) (n : Addr12) : formNnn d n &&& 0xF000 = formNnn d 0 := by
  have h : (0xF000 : Word) = formNnn 0xF 0 := by decide
  rw [h, and_formNnn]
  rw [show (0xF : Nibble) = BitVec.allOnes 4 by decide, BitVec.and_allOnes,
    show n &&& 0 = 0 from BitVec.and_zero]

theorem formXnn_and_F000 (d : Nibble) (x : Reg) (nn : Byte) : formXnn d x nn &&& 0xF000 = formNnn d 0 := by
  rw [formXnn_eq, formNnn_and_F000]

theorem formXyn_and_F000 (d : Nibble) (x y : Reg) (n : Nibble) : formXyn d x y n &&& 0xF000 = formNnn d 0 := by
  rw [formXyn_eq, formXnn_and_F000]

/-- Mask F0FF leaves d1 and the low byte of the form `x`. -/
theorem formXnn_and_F0FF (d : Nibble) (x : Reg) (nn : Byte) : formXnn d x nn &&& 0xF0FF = formXnn d 0 nn := by
  apply BitVec.eq_of_getLsbD_eq; intro i hi
  have h : ∀ i : Fin 16, (0xF0FF : Word).getLsbD i = (decide (i.val < 8) || decide (12 ≤ i.val)) := by decide
  have h := h ⟨i, hi⟩
  simp only at h
  simp only [formXnn, BitVec.getLsbD_and, BitVec.getLsbD_append, h]
  by_cases h1 : i < 8
  · simp [h1]
  · by_cases h2 : i - 8 < 4
    · simp [h1, h2, show ¬ 12 ≤ i by omega, nibbleOf]
    · simp [h1, h2, show 12 ≤ i by omega]

/-- Mask F00F leaves d1 and d4 of the form `xy`. -/
theorem formXyn_and_F00F (d : Nibble) (x y : Reg) (n : Nibble) : formXyn d x y n &&& 0xF00F = formXyn d 0 0 n := by
  apply BitVec.eq_of_getLsbD_eq; intro i hi
  have h : ∀ i : Fin 16, (0xF00F : Word).getLsbD i = (decide (i.val < 4) || decide (12 ≤ i.val)) := by decide
  have h := h ⟨i, hi⟩
  simp only at h
  simp only [formXyn, BitVec.getLsbD_and, BitVec.getLsbD_append, h]
  by_cases h1 : i < 4
  · simp [h1]
  · by_cases h2 : i - 4 < 4
    · simp [h1, h2, show ¬ 12 ≤ i by omega, nibbleOf]
    · by_cases h3 : i - 4 - 4 < 4
      · simp [h1, h2, h3, show ¬ 12 ≤ i by omega, nibbleOf]
      · simp [h1, h2, h3, show 12 ≤ i by omega]

/-! ### A form as a number (R73) -/

@[simp] theorem toNat_nibbleOf (x : Fin 16) : (nibbleOf x).toNat = x.val := rfl

theorem toNat_append_add {m n : Nat} (a : BitVec m) (b : BitVec n) : (a ++ b).toNat = a.toNat * 2 ^ n + b.toNat := by
  rw [BitVec.toNat_append, ← Nat.shiftLeft_add_eq_or_of_lt b.isLt, Nat.shiftLeft_eq]

theorem toNat_formNnn (d : Nibble) (nnn : Addr12) : (formNnn d nnn).toNat = d.toNat * 0x1000 + nnn.toNat :=
  toNat_append_add d nnn

theorem toNat_formXnn (d : Nibble) (x : Reg) (nn : Byte) :
    (formXnn d x nn).toNat = d.toNat * 0x1000 + x.val * 0x100 + nn.toNat := by
  rw [formXnn, toNat_append_add, toNat_append_add, toNat_nibbleOf]
  omega

theorem toNat_formXyn (d : Nibble) (x y : Reg) (n : Nibble) :
    (formXyn d x y n).toNat = d.toNat * 0x1000 + x.val * 0x100 + y.val * 0x10 + n.toNat := by
  rw [formXyn, toNat_append_add, toNat_append_add, toNat_append_add, toNat_nibbleOf, toNat_nibbleOf]
  omega

end Sys2Proof
end

