-- ==== Sys2Proof/Laws/Memory.lean ====
section
/-! SUPPORT. The laws of memory: a read after a write, and that every write keeps the canonical form. -/

namespace Sys2Proof.Machine

@[simp] theorem Memory.read_nil (a : Nat) : Memory.read [] a = resetByte a := rfl

theorem Memory.read_cons (c : Host.Cell) (m : Memory) (a : Nat) :
    Memory.read (c :: m) a = if c.1 = a then c.2 else Memory.read m a := rfl

/-- An address the list does not name reads as its reset contents. -/
theorem Memory.read_of_forall_ne {m : Memory} {a : Nat} (h : ∀ c ∈ m, c.1 ≠ a) : Memory.read m a = resetByte a := by
  induction m with
  | nil => rfl
  | cons c m ih =>
    rw [Memory.read_cons, if_neg (h c (by simp)), ih fun d hd => h d (by simp [hd])]

theorem Memory.read_place (a : Nat) (b : Byte) (m : Memory) (k : Nat) (h : ∀ c ∈ m, a < c.1) :
    Memory.read (Memory.place a b m) k = if a = k then b else Memory.read m k := by
  unfold Memory.place
  split
  next hb =>
    split
    next hk =>
      subst hk
      rw [Memory.read_of_forall_ne fun c hc => (Nat.ne_of_gt (h c hc)), hb]
    next => rfl
  next => rw [Memory.read_cons]

/-- The rising order alone is what reading after writing needs. -/
theorem Memory.read_write_of_pairwise {m : Memory} (hm : m.Pairwise fun c d => c.1 < d.1) (a k : Nat) (b : Byte) :
    Memory.read (Memory.write m a b) k = if a = k then b else Memory.read m k := by
  induction m with
  | nil => exact Memory.read_place a b [] k (by simp)
  | cons c m ih =>
    obtain ⟨hc, hm'⟩ := List.pairwise_cons.1 hm
    obtain ⟨ck, cv⟩ := c
    simp only [Memory.write]
    split
    next hlt =>
      exact Memory.read_place a b _ k (by
        intro d hd
        rcases List.mem_cons.1 hd with rfl | hd
        · exact hlt
        · exact Nat.lt_trans hlt (hc d hd))
    next =>
      split
      next heq =>
        subst heq
        rw [Memory.read_place _ b m k hc, Memory.read_cons]
        split <;> simp_all
      next hne =>
        rw [Memory.read_cons, ih hm', Memory.read_cons]
        by_cases h1 : ck = k <;> by_cases h2 : a = k <;> simp_all

/-- A read after a write to a canonical memory: the byte written, or the old byte elsewhere. -/
theorem Memory.read_write {m : Memory} (hm : Memory.wf m) (a k : Nat) (b : Byte) :
    Memory.read (Memory.write m a b) k = if a = k then b else Memory.read m k :=
  Memory.read_write_of_pairwise hm.1 a k b

/-- A write adds at most the cell it writes. -/
theorem Memory.mem_write {m : Memory} {a : Nat} {b : Byte} {c : Host.Cell} (h : c ∈ Memory.write m a b) :
    c ∈ m ∨ c = (a, b) ∧ b ≠ resetByte a := by
  induction m with
  | nil =>
    simp only [Memory.write, Memory.place] at h
    split at h <;> simp_all
  | cons d m ih =>
    obtain ⟨dk, dv⟩ := d
    simp only [Memory.write, Memory.place] at h
    split at h
    · split at h
      · exact .inl h
      · rcases List.mem_cons.1 h with h | h
        · exact .inr ⟨h, ‹_›⟩
        · exact .inl h
    · split at h
      · split at h
        · exact .inl (List.mem_cons_of_mem _ h)
        · rcases List.mem_cons.1 h with h | h
          · exact .inr ⟨h, ‹_›⟩
          · exact .inl (List.mem_cons_of_mem _ h)
      · rcases List.mem_cons.1 h with h | h
        · exact .inl (h ▸ List.mem_cons_self)
        · exact (ih h).imp_left (List.mem_cons_of_mem _)

theorem Memory.write_pairwise {m : Memory} (hm : m.Pairwise fun c d => c.1 < d.1) (a : Nat) (b : Byte) :
    (Memory.write m a b).Pairwise fun c d => c.1 < d.1 := by
  induction m with
  | nil => simp only [Memory.write, Memory.place]; split <;> simp
  | cons c m ih =>
    obtain ⟨hc, hm'⟩ := List.pairwise_cons.1 hm
    obtain ⟨ck, cv⟩ := c
    simp only [Memory.write, Memory.place]
    split
    next hlt =>
      split
      · exact hm
      · refine List.pairwise_cons.2 ⟨fun d hd => ?_, hm⟩
        rcases List.mem_cons.1 hd with rfl | hd
        · exact hlt
        · exact Nat.lt_trans hlt (hc d hd)
    next hge =>
      split
      next heq =>
        subst heq
        split
        · exact hm'
        · exact List.pairwise_cons.2 ⟨hc, hm'⟩
      next hne =>
        refine List.pairwise_cons.2 ⟨fun d hd => ?_, ih hm'⟩
        rcases Memory.mem_write hd with hd | ⟨rfl, -⟩
        · exact hc d hd
        · show ck < a
          omega

/-- A write inside the address space keeps the canonical form. -/
theorem Memory.write_wf {m : Memory} (hm : Memory.wf m) {a : Nat} (b : Byte) (ha : a < Config.memSize) :
    Memory.wf (Memory.write m a b) := by
  refine ⟨Memory.write_pairwise hm.1 a b, fun c hc => ?_⟩
  rcases Memory.mem_write hc with h | ⟨rfl, hb⟩
  · exact hm.2 c h
  · exact ⟨ha, hb⟩

theorem Memory.writeBytes_pairwise {m : Memory} (hm : m.Pairwise fun c d => c.1 < d.1) (a : Nat) (bs : List Byte) :
    (Memory.writeBytes m a bs).Pairwise fun c d => c.1 < d.1 := by
  induction bs generalizing m a with
  | nil => exact hm
  | cons b bs ih => exact ih (Memory.write_pairwise hm a b) (a + 1)

/-- A block write inside the address space keeps the canonical form. -/
theorem Memory.writeBytes_wf {m : Memory} (hm : Memory.wf m) (a : Nat) (bs : List Byte)
    (h : a + bs.length ≤ Config.memSize) : Memory.wf (Memory.writeBytes m a bs) := by
  induction bs generalizing m a with
  | nil => exact hm
  | cons b bs ih =>
    simp only [List.length_cons] at h
    exact ih (Memory.write_wf hm b (by omega)) (a + 1) (by omega)

/-- A read after a block write: the block's own byte inside it, the old byte outside. -/
theorem Memory.read_writeBytes {m : Memory} (hm : m.Pairwise fun c d => c.1 < d.1) (a k : Nat) (bs : List Byte) :
    Memory.read (Memory.writeBytes m a bs) k =
      if h : a ≤ k ∧ k < a + bs.length then bs[k - a]'(by omega) else Memory.read m k := by
  induction bs generalizing m a with
  | nil =>
    rw [dif_neg (by simp only [List.length_nil]; omega)]
    rfl
  | cons b bs ih =>
    simp only [Memory.writeBytes, List.length_cons]
    rw [ih (Memory.write_pairwise hm a b), Memory.read_write_of_pairwise hm]
    by_cases hk : a = k
    · subst hk
      simp
    · by_cases hin : a + 1 ≤ k ∧ k < a + 1 + bs.length
      · rw [dif_pos hin, dif_pos (by omega)]
        rw [List.getElem_cons]
        rw [dif_neg (by omega)]
        congr 1
      · rw [dif_neg hin, if_neg hk, dif_neg (by omega)]

/-- Writing the reset contents over the reset memory lists nothing. -/
theorem Memory.writeBytes_nil_reset (a : Nat) (bs : List Byte)
    (h : ∀ k (hk : k < bs.length), bs[k] = resetByte (a + k)) : Memory.writeBytes [] a bs = [] := by
  induction bs generalizing a with
  | nil => rfl
  | cons b bs ih =>
    have hb : b = resetByte a := h 0 (by simp)
    have hw : Memory.write [] a b = [] := if_pos hb
    rw [Memory.writeBytes, hw]
    refine ih (a + 1) fun k hk => ?_
    rw [show a + 1 + k = a + (k + 1) by omega]
    exact h (k + 1) (by simpa using hk)

/-- Above the font the reset contents are 0x00 (R52). -/
theorem resetByte_above {a : Nat} (h : Config.fontLen ≤ a) : resetByte a = 0x00 :=
  List.getD_eq_default _ _ h

theorem Memory.length_readBytes (m : Memory) (a n : Nat) : (Memory.readBytes m a n).length = n := by
  simp [Memory.readBytes]

theorem Memory.getElem_readBytes (m : Memory) (a n k : Nat) (h : k < (Memory.readBytes m a n).length) :
    (Memory.readBytes m a n)[k] = Memory.read m (a + k) := by
  simp [Memory.readBytes]

end Sys2Proof.Machine
end

