-- ==== Sys2Proof/Laws/State.lean ====
section
/-! SUPPORT. What each update of the state does to each field: one lemma per field per update, so that no proof unfolds
a record update. -/

namespace Sys2Proof.Machine

variable (s : State)

/-! ### advancePc -/

@[simp] theorem State.advancePc_mem : (s.advancePc).mem = s.mem := rfl
@[simp] theorem State.advancePc_v : (s.advancePc).v = s.v := rfl
@[simp] theorem State.advancePc_i : (s.advancePc).i = s.i := rfl
@[simp] theorem State.advancePc_pc : (s.advancePc).pc = s.pc + 2 := rfl
@[simp] theorem State.advancePc_dt : (s.advancePc).dt = s.dt := rfl
@[simp] theorem State.advancePc_st : (s.advancePc).st = s.st := rfl
@[simp] theorem State.advancePc_stack : (s.advancePc).stack = s.stack := rfl
@[simp] theorem State.advancePc_sp : (s.advancePc).sp = s.sp := rfl
@[simp] theorem State.advancePc_disp : (s.advancePc).disp = s.disp := rfl
@[simp] theorem State.advancePc_keys : (s.advancePc).keys = s.keys := rfl
@[simp] theorem State.advancePc_status : (s.advancePc).status = s.status := rfl
@[simp] theorem State.advancePc_draws : (s.advancePc).draws = s.draws := rfl
@[simp] theorem State.advancePc_calls : (s.advancePc).calls = s.calls := rfl

/-! ### writeV -/

@[simp] theorem State.writeV_mem (x : Reg) (b : Byte) : (s.writeV x b).mem = s.mem := rfl
@[simp] theorem State.writeV_v (x : Reg) (b : Byte) : (s.writeV x b).v = s.v.set x b := rfl
@[simp] theorem State.writeV_i (x : Reg) (b : Byte) : (s.writeV x b).i = s.i := rfl
@[simp] theorem State.writeV_pc (x : Reg) (b : Byte) : (s.writeV x b).pc = s.pc := rfl
@[simp] theorem State.writeV_dt (x : Reg) (b : Byte) : (s.writeV x b).dt = s.dt := rfl
@[simp] theorem State.writeV_st (x : Reg) (b : Byte) : (s.writeV x b).st = s.st := rfl
@[simp] theorem State.writeV_stack (x : Reg) (b : Byte) : (s.writeV x b).stack = s.stack := rfl
@[simp] theorem State.writeV_sp (x : Reg) (b : Byte) : (s.writeV x b).sp = s.sp := rfl
@[simp] theorem State.writeV_disp (x : Reg) (b : Byte) : (s.writeV x b).disp = s.disp := rfl
@[simp] theorem State.writeV_keys (x : Reg) (b : Byte) : (s.writeV x b).keys = s.keys := rfl
@[simp] theorem State.writeV_status (x : Reg) (b : Byte) : (s.writeV x b).status = s.status := rfl
@[simp] theorem State.writeV_draws (x : Reg) (b : Byte) : (s.writeV x b).draws = s.draws := rfl
@[simp] theorem State.writeV_calls (x : Reg) (b : Byte) : (s.writeV x b).calls = s.calls := rfl

/-! ### writeResultAndFlag -/

@[simp] theorem State.writeResultAndFlag_mem (x : Reg) (a b : Byte) : (s.writeResultAndFlag x a b).mem = s.mem := rfl
@[simp] theorem State.writeResultAndFlag_v (x : Reg) (a b : Byte) : (s.writeResultAndFlag x a b).v = (s.v.set x a).set VF b := rfl
@[simp] theorem State.writeResultAndFlag_i (x : Reg) (a b : Byte) : (s.writeResultAndFlag x a b).i = s.i := rfl
@[simp] theorem State.writeResultAndFlag_pc (x : Reg) (a b : Byte) : (s.writeResultAndFlag x a b).pc = s.pc := rfl
@[simp] theorem State.writeResultAndFlag_dt (x : Reg) (a b : Byte) : (s.writeResultAndFlag x a b).dt = s.dt := rfl
@[simp] theorem State.writeResultAndFlag_st (x : Reg) (a b : Byte) : (s.writeResultAndFlag x a b).st = s.st := rfl
@[simp] theorem State.writeResultAndFlag_stack (x : Reg) (a b : Byte) : (s.writeResultAndFlag x a b).stack = s.stack := rfl
@[simp] theorem State.writeResultAndFlag_sp (x : Reg) (a b : Byte) : (s.writeResultAndFlag x a b).sp = s.sp := rfl
@[simp] theorem State.writeResultAndFlag_disp (x : Reg) (a b : Byte) : (s.writeResultAndFlag x a b).disp = s.disp := rfl
@[simp] theorem State.writeResultAndFlag_keys (x : Reg) (a b : Byte) : (s.writeResultAndFlag x a b).keys = s.keys := rfl
@[simp] theorem State.writeResultAndFlag_status (x : Reg) (a b : Byte) : (s.writeResultAndFlag x a b).status = s.status := rfl
@[simp] theorem State.writeResultAndFlag_draws (x : Reg) (a b : Byte) : (s.writeResultAndFlag x a b).draws = s.draws := rfl
@[simp] theorem State.writeResultAndFlag_calls (x : Reg) (a b : Byte) : (s.writeResultAndFlag x a b).calls = s.calls := rfl

/-! ### takeFatal -/

@[simp] theorem State.takeFatal_mem (op : Option Word) (f : Fatal) : (s.takeFatal op f).mem = s.mem := rfl
@[simp] theorem State.takeFatal_v (op : Option Word) (f : Fatal) : (s.takeFatal op f).v = s.v := rfl
@[simp] theorem State.takeFatal_i (op : Option Word) (f : Fatal) : (s.takeFatal op f).i = s.i := rfl
@[simp] theorem State.takeFatal_pc (op : Option Word) (f : Fatal) : (s.takeFatal op f).pc = s.pc := rfl
@[simp] theorem State.takeFatal_dt (op : Option Word) (f : Fatal) : (s.takeFatal op f).dt = s.dt := rfl
@[simp] theorem State.takeFatal_st (op : Option Word) (f : Fatal) : (s.takeFatal op f).st = s.st := rfl
@[simp] theorem State.takeFatal_stack (op : Option Word) (f : Fatal) : (s.takeFatal op f).stack = s.stack := rfl
@[simp] theorem State.takeFatal_sp (op : Option Word) (f : Fatal) : (s.takeFatal op f).sp = s.sp := rfl
@[simp] theorem State.takeFatal_disp (op : Option Word) (f : Fatal) : (s.takeFatal op f).disp = s.disp := rfl
@[simp] theorem State.takeFatal_keys (op : Option Word) (f : Fatal) : (s.takeFatal op f).keys = s.keys := rfl
@[simp] theorem State.takeFatal_status (op : Option Word) (f : Fatal) : (s.takeFatal op f).status = .halted ⟨f.cause, s.pc, op, f.info⟩ := rfl
@[simp] theorem State.takeFatal_draws (op : Option Word) (f : Fatal) : (s.takeFatal op f).draws = s.draws := rfl
@[simp] theorem State.takeFatal_calls (op : Option Word) (f : Fatal) : (s.takeFatal op f).calls = s.calls := rfl

/-! ### tickTimers -/

@[simp] theorem State.tickTimers_mem : (tickTimers s).mem = s.mem := rfl
@[simp] theorem State.tickTimers_v : (tickTimers s).v = s.v := rfl
@[simp] theorem State.tickTimers_i : (tickTimers s).i = s.i := rfl
@[simp] theorem State.tickTimers_pc : (tickTimers s).pc = s.pc := rfl
@[simp] theorem State.tickTimers_dt : (tickTimers s).dt = countDown s.dt := rfl
@[simp] theorem State.tickTimers_st : (tickTimers s).st = countDown s.st := rfl
@[simp] theorem State.tickTimers_stack : (tickTimers s).stack = s.stack := rfl
@[simp] theorem State.tickTimers_sp : (tickTimers s).sp = s.sp := rfl
@[simp] theorem State.tickTimers_disp : (tickTimers s).disp = s.disp := rfl
@[simp] theorem State.tickTimers_keys : (tickTimers s).keys = s.keys := rfl
@[simp] theorem State.tickTimers_status : (tickTimers s).status = s.status := rfl
@[simp] theorem State.tickTimers_draws : (tickTimers s).draws = s.draws := rfl
@[simp] theorem State.tickTimers_calls : (tickTimers s).calls = s.calls := rfl

/-! ### skipIf -/

@[simp] theorem State.skipIf_mem (c : Bool) : (s.skipIf c).mem = s.mem := by cases c <;> rfl
@[simp] theorem State.skipIf_v (c : Bool) : (s.skipIf c).v = s.v := by cases c <;> rfl
@[simp] theorem State.skipIf_i (c : Bool) : (s.skipIf c).i = s.i := by cases c <;> rfl
theorem State.skipIf_pc (c : Bool) : (s.skipIf c).pc = if c then s.pc + 2 else s.pc := by cases c <;> rfl
@[simp] theorem State.skipIf_dt (c : Bool) : (s.skipIf c).dt = s.dt := by cases c <;> rfl
@[simp] theorem State.skipIf_st (c : Bool) : (s.skipIf c).st = s.st := by cases c <;> rfl
@[simp] theorem State.skipIf_stack (c : Bool) : (s.skipIf c).stack = s.stack := by cases c <;> rfl
@[simp] theorem State.skipIf_sp (c : Bool) : (s.skipIf c).sp = s.sp := by cases c <;> rfl
@[simp] theorem State.skipIf_disp (c : Bool) : (s.skipIf c).disp = s.disp := by cases c <;> rfl
@[simp] theorem State.skipIf_keys (c : Bool) : (s.skipIf c).keys = s.keys := by cases c <;> rfl
@[simp] theorem State.skipIf_status (c : Bool) : (s.skipIf c).status = s.status := by cases c <;> rfl
@[simp] theorem State.skipIf_draws (c : Bool) : (s.skipIf c).draws = s.draws := by cases c <;> rfl
@[simp] theorem State.skipIf_calls (c : Bool) : (s.skipIf c).calls = s.calls := by cases c <;> rfl

/-! ### bumpI -/

@[simp] theorem State.bumpI_mem (p : Config.Params) (x : Reg) : (s.bumpI p x).mem = s.mem := by
  unfold State.bumpI; split <;> rfl
@[simp] theorem State.bumpI_v (p : Config.Params) (x : Reg) : (s.bumpI p x).v = s.v := by
  unfold State.bumpI; split <;> rfl
@[simp] theorem State.bumpI_hw (x : Reg) : s.bumpI hwParams x = s := rfl
@[simp] theorem State.bumpI_pc (p : Config.Params) (x : Reg) : (s.bumpI p x).pc = s.pc := by
  unfold State.bumpI; split <;> rfl
@[simp] theorem State.bumpI_dt (p : Config.Params) (x : Reg) : (s.bumpI p x).dt = s.dt := by
  unfold State.bumpI; split <;> rfl
@[simp] theorem State.bumpI_st (p : Config.Params) (x : Reg) : (s.bumpI p x).st = s.st := by
  unfold State.bumpI; split <;> rfl
@[simp] theorem State.bumpI_stack (p : Config.Params) (x : Reg) : (s.bumpI p x).stack = s.stack := by
  unfold State.bumpI; split <;> rfl
@[simp] theorem State.bumpI_sp (p : Config.Params) (x : Reg) : (s.bumpI p x).sp = s.sp := by
  unfold State.bumpI; split <;> rfl
@[simp] theorem State.bumpI_disp (p : Config.Params) (x : Reg) : (s.bumpI p x).disp = s.disp := by
  unfold State.bumpI; split <;> rfl
@[simp] theorem State.bumpI_keys (p : Config.Params) (x : Reg) : (s.bumpI p x).keys = s.keys := by
  unfold State.bumpI; split <;> rfl
@[simp] theorem State.bumpI_status (p : Config.Params) (x : Reg) : (s.bumpI p x).status = s.status := by
  unfold State.bumpI; split <;> rfl
@[simp] theorem State.bumpI_draws (p : Config.Params) (x : Reg) : (s.bumpI p x).draws = s.draws := by
  unfold State.bumpI; split <;> rfl
@[simp] theorem State.bumpI_calls (p : Config.Params) (x : Reg) : (s.bumpI p x).calls = s.calls := by
  unfold State.bumpI; split <;> rfl

/-! ### construct -/

@[simp] theorem State.construct_mem (p : Config.Params) :
    (State.construct p).mem = Memory.writeBytes State.reset.mem 0x000 p.fontRom.toList := rfl
@[simp] theorem State.construct_v (p : Config.Params) : (State.construct p).v = State.reset.v := rfl
@[simp] theorem State.construct_i (p : Config.Params) : (State.construct p).i = State.reset.i := rfl
@[simp] theorem State.construct_pc (p : Config.Params) : (State.construct p).pc = State.reset.pc := rfl
@[simp] theorem State.construct_dt (p : Config.Params) : (State.construct p).dt = State.reset.dt := rfl
@[simp] theorem State.construct_st (p : Config.Params) : (State.construct p).st = State.reset.st := rfl
@[simp] theorem State.construct_stack (p : Config.Params) : (State.construct p).stack = State.reset.stack := rfl
@[simp] theorem State.construct_sp (p : Config.Params) : (State.construct p).sp = State.reset.sp := rfl
@[simp] theorem State.construct_disp (p : Config.Params) : (State.construct p).disp = State.reset.disp := rfl
@[simp] theorem State.construct_keys (p : Config.Params) : (State.construct p).keys = State.reset.keys := rfl
@[simp] theorem State.construct_status (p : Config.Params) : (State.construct p).status = State.reset.status := rfl
@[simp] theorem State.construct_draws (p : Config.Params) : (State.construct p).draws = State.reset.draws := rfl
@[simp] theorem State.construct_calls (p : Config.Params) : (State.construct p).calls = State.reset.calls := rfl

/-! ### hostReset -/

@[simp] theorem State.hostReset_mem (p : Config.Params) : (s.hostReset p).mem = (State.construct p).mem := rfl
@[simp] theorem State.hostReset_v (p : Config.Params) : (s.hostReset p).v = (State.construct p).v := rfl
@[simp] theorem State.hostReset_i (p : Config.Params) : (s.hostReset p).i = (State.construct p).i := rfl
@[simp] theorem State.hostReset_pc (p : Config.Params) : (s.hostReset p).pc = (State.construct p).pc := rfl
@[simp] theorem State.hostReset_dt (p : Config.Params) : (s.hostReset p).dt = (State.construct p).dt := rfl
@[simp] theorem State.hostReset_st (p : Config.Params) : (s.hostReset p).st = (State.construct p).st := rfl
@[simp] theorem State.hostReset_stack (p : Config.Params) : (s.hostReset p).stack = (State.construct p).stack := rfl
@[simp] theorem State.hostReset_sp (p : Config.Params) : (s.hostReset p).sp = (State.construct p).sp := rfl
@[simp] theorem State.hostReset_disp (p : Config.Params) : (s.hostReset p).disp = (State.construct p).disp := rfl
@[simp] theorem State.hostReset_keys (p : Config.Params) : (s.hostReset p).keys = (State.construct p).keys := rfl
@[simp] theorem State.hostReset_status (p : Config.Params) : (s.hostReset p).status = (State.construct p).status := rfl
@[simp] theorem State.hostReset_draws (p : Config.Params) : (s.hostReset p).draws = s.draws := rfl
@[simp] theorem State.hostReset_calls (p : Config.Params) : (s.hostReset p).calls = s.calls := rfl

/-! ### Reading a register -/

theorem State.readV_writeV (x y : Reg) (b : Byte) :
    (s.writeV x b).readV y = if x = y then b else s.readV y := by
  simp only [State.readV, State.writeV, Fin.getElem_fin, Vector.getElem_set, Fin.ext_iff]

@[simp] theorem State.readV_writeV_self (x : Reg) (b : Byte) : (s.writeV x b).readV x = b := by
  simp [State.readV_writeV]

theorem State.readV_writeV_ne (x y : Reg) (b : Byte) (h : y ≠ x) : (s.writeV x b).readV y = s.readV y := by
  simp [State.readV_writeV, Ne.symm h]

@[simp] theorem State.readV_advancePc (x : Reg) : s.advancePc.readV x = s.readV x := rfl

@[simp] theorem State.readV_skipIf (c : Bool) (x : Reg) : (s.skipIf c).readV x = s.readV x := by cases c <;> rfl

@[simp] theorem State.readV_takeFatal (op : Option Word) (f : Fatal) (x : Reg) :
    (s.takeFatal op f).readV x = s.readV x := rfl

/-- The flag is the final VF, also when x = 0xF (R96). -/
@[simp] theorem State.readV_writeResultAndFlag_VF (x : Reg) (a b : Byte) :
    (s.writeResultAndFlag x a b).readV VF = b := by
  simp [State.writeResultAndFlag]

theorem State.readV_writeResultAndFlag (x y : Reg) (a b : Byte) :
    (s.writeResultAndFlag x a b).readV y = if y = VF then b else if y = x then a else s.readV y := by
  simp only [State.writeResultAndFlag, State.readV_writeV, eq_comm]

/-! ### Parameters of this hardware -/

@[simp] theorem hwParams_shiftSrcVy : hwParams.shiftSrcVy = false := rfl
@[simp] theorem hwParams_ldstIncI : hwParams.ldstIncI = false := rfl
@[simp] theorem hwParams_lowGuard : hwParams.lowGuard = false := rfl
@[simp] theorem hwParams_fontRom_toList : hwParams.fontRom.toList = fontRom := rfl
@[simp] theorem shiftSource_hw (x y : Reg) : shiftSource hwParams x y = x := rfl
@[simp] theorem lowOk_hw (k : AccessKind) (a : Nat) : lowOk hwParams k a = true := rfl

end Sys2Proof.Machine
end

