-- ==== Sys2Proof/Laws/Ops.lean ====
section
/-! SUPPORT. For each shared operation, one lemma that says everything it can do. -/

namespace Sys2Proof.Machine

/-! ### Zero-extensions (R72) -/

@[simp] theorem toNat_zextAddr (n : Addr12) : (zextAddr n).toNat = n.toNat := by
  have := n.isLt
  simp only [zextAddr, BitVec.toNat_setWidth]
  omega

@[simp] theorem toNat_zextByte (b : Byte) : (zextByte b).toNat = b.toNat := by
  have := b.isLt
  simp only [zextByte, BitVec.toNat_setWidth]
  omega

/-! ### Construction and reset (R10, R200) -/

/-- Construction under this hardware's parameters is the state after reset. -/
@[simp] theorem State.construct_hw : State.construct hwParams = State.reset := by
  have hm : Memory.writeBytes State.reset.mem 0x000 hwParams.fontRom.toList = State.reset.mem :=
    Memory.writeBytes_nil_reset _ _ fun k hk => by
      rw [Nat.zero_add]
      exact (List.getD_eq_getElem fontRom _ hk).symm
  rw [State.construct, hm]

/-- The constructed memory: FONT_ROM at 0x000..0x04F and 0x00 above. -/
theorem State.read_construct (p : Config.Params) (a : Nat) :
    Memory.read (State.construct p).mem a = if h : a < Config.fontLen then p.fontRom[a] else 0x00 := by
  rw [State.construct_mem, Memory.read_writeBytes (m := State.reset.mem) List.Pairwise.nil]
  simp only [Nat.zero_le, true_and, Nat.zero_add, Vector.length_toList, Nat.sub_zero, Vector.getElem_toList]
  split
  · rfl
  · exact resetByte_above (by omega)

theorem State.construct_wf (p : Config.Params) : Memory.wf (State.construct p).mem :=
  Memory.writeBytes_wf (m := State.reset.mem) (by decide) _ _ (by rw [Vector.length_toList]; decide)

/-! ### Execution under parameters (R21) -/

/-- Under this hardware's parameters Execute is `exec`. -/
@[simp] theorem execUnder_hw (i : Instr) (s : State) : execUnder hwParams i s = exec i s := by cases i <;> rfl

/-! The six meanings whose rules name a parameter, in the terms of their bodies. -/

theorem execShr_eq (x y : Reg) (s : State) : execShr x y s = .next (shiftRightBody hwParams x y s.advancePc) := rfl
theorem execShl_eq (x y : Reg) (s : State) : execShl x y s = .next (shiftLeftBody hwParams x y s.advancePc) := rfl
theorem execDrw_eq (x y : Reg) (n : RowCount) (s : State) :
    execDrw x y n s = settle (encode (.drw x y n)) s (drawBody hwParams x y n s.advancePc) := rfl
theorem execLdB_eq (x : Reg) (s : State) :
    execLdB x s = settle (encode (.ldB x)) s (bcdBody hwParams x s.advancePc) := rfl
theorem execStoreRegs_eq (x : Reg) (s : State) :
    execStoreRegs x s = settle (encode (.storeRegs x)) s (storeRegsBody hwParams x s.advancePc) := rfl
theorem execLoadRegs_eq (x : Reg) (s : State) :
    execLoadRegs x s = settle (encode (.loadRegs x)) s (loadRegsBody hwParams x s.advancePc) := rfl

/-! ### The end of a tick (R90) -/

@[simp] theorem settle_ok (op : Word) (s t : State) : settle op s (.ok t) = .next t := rfl

@[simp] theorem settle_error (op : Word) (s : State) (f : Fatal) :
    settle op s (.error f) = .next (s.takeFatal (some op) f) := rfl

/-- A settled tick has a next state: the completed one, or the state at entry HALTED. -/
theorem settle_cases (op : Word) (s : State) (r : Except Fatal State) :
    (∃ t, r = .ok t ∧ settle op s r = .next t) ∨ ∃ f, r = .error f ∧ settle op s r = .next (s.takeFatal (some op) f) := by
  cases r with
  | ok t => exact .inl ⟨t, rfl, rfl⟩
  | error f => exact .inr ⟨f, rfl, rfl⟩

/-! ### Checked accesses (R55, R146), with LOW_GUARD = false -/

theorem memRead_hw (k : AccessKind) (m : Memory) (a : Nat) :
    memRead hwParams k m a = if 0xFFF < a then .error ⟨rangeCause k, a⟩ else .ok (Memory.read m a) := by
  simp only [memRead, lowOk_hw, if_true]

theorem blockFault_hw (k : AccessKind) (base n : Nat) :
    blockFault hwParams k base n =
      if 0 < n ∧ 0xFFF < base + n - 1 then some ⟨.dataOutOfRange, max base 0x1000⟩ else none := by
  unfold blockFault
  split
  · rfl
  · simp

/-- A block inside the address space passes the checks. -/
theorem afterBlockCheck_hw_ok (k : AccessKind) (base n : Nat) (t : State) (h : base + n ≤ 0x1000) :
    afterBlockCheck hwParams k base n t = .ok t := by
  rw [afterBlockCheck, blockFault_hw, if_neg (by omega)]

/-- A block that leaves the address space raises DATA_OUT_OF_RANGE. -/
theorem afterBlockCheck_hw_error (k : AccessKind) (base n : Nat) (t : State) (hn : 0 < n) (h : 0x1000 < base + n) :
    afterBlockCheck hwParams k base n t = .error ⟨.dataOutOfRange, max base 0x1000⟩ := by
  rw [afterBlockCheck, blockFault_hw, if_pos (by omega)]

theorem afterBlockCheck_hw (k : AccessKind) (base n : Nat) (t : State) :
    afterBlockCheck hwParams k base n t =
      if 0 < n ∧ 0x1000 < base + n then .error ⟨.dataOutOfRange, max base 0x1000⟩ else .ok t := by
  split
  next h => exact afterBlockCheck_hw_error k base n t h.1 h.2
  next h =>
    rcases Nat.eq_zero_or_pos n with rfl | hn
    · rw [afterBlockCheck, blockFault_hw, if_neg (by omega)]
    · exact afterBlockCheck_hw_ok k base n t (by omega)

/-- The fetch succeeds exactly when PC is at most 0xFFE; otherwise it raises FETCH_OUT_OF_RANGE with the first address
above 0xFFF. -/
theorem fetch_hw (s : State) :
    fetch hwParams s =
      if s.pc.toNat ≤ 0xFFE then
        .ok (opcodeOf (Memory.read s.mem s.pc.toNat) (Memory.read s.mem (s.pc.toNat + 1)))
      else .error ⟨.fetchOutOfRange, max s.pc.toNat 0x1000⟩ := by
  simp only [fetch, memRead_hw]
  by_cases h1 : 0xFFF < s.pc.toNat
  · rw [if_pos h1, if_neg (show ¬ s.pc.toNat ≤ 0xFFE by omega), Nat.max_eq_left (by omega)]
    rfl
  · rw [if_neg h1]
    by_cases h2 : s.pc.toNat ≤ 0xFFE
    · rw [if_pos h2, if_neg (by omega)]
    · rw [if_neg h2, if_pos (by omega)]
      simp only [rangeCause]
      rw [Nat.max_eq_right (by omega), show s.pc.toNat + 1 = 0x1000 by omega]

/-! ### The stack (R31) -/

theorem State.push_of_lt (s : State) (w : Word) (h : s.sp.val < 16) :
    s.push w = .ok { s with stack := s.stack.set s.sp.val w h, sp := ⟨s.sp.val + 1, by omega⟩ } := by
  rw [State.push, dif_pos h]

theorem State.push_full (s : State) (w : Word) (h : ¬ s.sp.val < 16) : s.push w = .error ⟨.stackOverflow, s.sp.val⟩ := by
  rw [State.push, dif_neg h]

theorem State.pop_of_pos (s : State) (h : 0 < s.sp.val) :
    s.pop = .ok (s.stack[s.sp.val - 1]'(by omega), { s with sp := ⟨s.sp.val - 1, by omega⟩ }) := by
  rw [State.pop, dif_pos h]

theorem State.pop_empty (s : State) (h : ¬ 0 < s.sp.val) : s.pop = .error ⟨.stackUnderflow, s.sp.val⟩ := by
  rw [State.pop, dif_neg h]

/-! ### The display (R32, R151) -/

theorem Display.lit_toggle (d : Display) (p q : Pixel) :
    Display.lit (Display.toggle d p) q = if p = q then !Display.lit d p else Display.lit d q := by
  obtain ⟨px, py⟩ := p
  obtain ⟨qx, qy⟩ := q
  simp only [Display.lit, Display.toggle, Fin.getElem_fin, Vector.getElem_set, Prod.mk.injEq]
  by_cases hy : py = qy
  · subst hy
    by_cases hx : px = qx
    · subst hx; simp
    · simp [hx, Fin.val_ne_of_ne hx]
  · simp [hy, Fin.val_ne_of_ne hy]

@[simp] theorem Display.lit_clear (p : Pixel) : Display.lit Display.clear p = false := by
  simp [Display.lit, Display.clear]

@[simp] theorem drawPixels_nil (d : Display) (c : Bool) : drawPixels [] d c = (d, c) := rfl

@[simp] theorem drawPixels_cons (p : Pixel) (ps : List Pixel) (d : Display) (c : Bool) :
    drawPixels (p :: ps) d c = drawPixels ps (Display.toggle d p) (c || Display.lit d p) := rfl

/-! ### The keypad (R163) -/

theorem lowestKey_eq_none_iff (keys : Vector Bool 16) : lowestKey keys = none ↔ ∀ k : Reg, keys[k] = false := by
  simp [lowestKey, List.find?_eq_none]

/-- The lowest key down: it is down and no lower one is. -/
theorem lowestKey_down {keys : Vector Bool 16} {k : Reg} (h : lowestKey keys = some k) : keys[k] = true :=
  List.find?_some (p := fun j : Reg => keys[j]) h

theorem lowestKey_least {keys : Vector Bool 16} {k : Reg} (h : lowestKey keys = some k) (j : Reg) (hj : j < k) :
    keys[j] = false := by
  obtain ⟨-, as, bs, hl, hf⟩ := List.find?_eq_some_iff_append.1 h
  have hmem : j ∈ as ++ k :: bs := hl ▸ List.mem_finRange j
  have hsorted : (as ++ k :: bs).Pairwise (· < ·) := hl ▸ List.pairwise_lt_finRange 16
  rcases List.mem_append.1 hmem with h1 | h1
  · simpa using hf j h1
  · rcases List.mem_cons.1 h1 with rfl | h1
    · exact absurd hj (lt_irrefl _)
    · have := (List.pairwise_cons.1 (List.pairwise_append.1 hsorted).2.1).1 j h1
      exact absurd hj (not_lt.2 this.le)

/-! ### Host calls (R176) -/

theorem whenRunning_running {s : State} (h : s.status = .running) (o : Outcome) : whenRunning s o = o := by
  simp only [whenRunning, h]

theorem whenRunning_halted {s : State} {r : FaultRecord} (h : s.status = .halted r) (o : Outcome) :
    whenRunning s o = .fault (.coreHalted r) := by
  simp only [whenRunning, h]

end Sys2Proof.Machine
end

