-- ==== Sys2Proof/Laws/PerInstr.lean ====
section
/-! SUPPORT. Statements for all instructions, one lemma per constructor. -/

namespace Sys2Proof.Laws.RowMatch

/-- The family RowMatch: an instruction's word matches the `match / mask` pair that 30_encoding.md R75 prints for it. -/
def Statement (i : Instr) : Prop := (opcodeRow i).covers (encode i) = true

theorem cls : Statement .cls := by unfold Statement; decide
theorem ret : Statement .ret := by unfold Statement; decide
theorem nop : Statement .nop := by unfold Statement; decide
theorem jp (nnn : Addr12) : Statement (.jp nnn) := by
  simp only [Statement, OpcodeRow.covers, opcodeRow, encode, formNnn_and_F000]; decide
theorem call (nnn : Addr12) : Statement (.call nnn) := by
  simp only [Statement, OpcodeRow.covers, opcodeRow, encode, formNnn_and_F000]; decide
theorem ldI (nnn : Addr12) : Statement (.ldI nnn) := by
  simp only [Statement, OpcodeRow.covers, opcodeRow, encode, formNnn_and_F000]; decide
theorem jpV0 (nnn : Addr12) : Statement (.jpV0 nnn) := by
  simp only [Statement, OpcodeRow.covers, opcodeRow, encode, formNnn_and_F000]; decide
theorem seImm (x : Reg) (nn : Byte) : Statement (.seImm x nn) := by
  simp only [Statement, OpcodeRow.covers, opcodeRow, encode, formXnn_and_F000]; decide
theorem sneImm (x : Reg) (nn : Byte) : Statement (.sneImm x nn) := by
  simp only [Statement, OpcodeRow.covers, opcodeRow, encode, formXnn_and_F000]; decide
theorem ldImm (x : Reg) (nn : Byte) : Statement (.ldImm x nn) := by
  simp only [Statement, OpcodeRow.covers, opcodeRow, encode, formXnn_and_F000]; decide
theorem addImm (x : Reg) (nn : Byte) : Statement (.addImm x nn) := by
  simp only [Statement, OpcodeRow.covers, opcodeRow, encode, formXnn_and_F000]; decide
theorem rnd (x : Reg) (nn : Byte) : Statement (.rnd x nn) := by
  simp only [Statement, OpcodeRow.covers, opcodeRow, encode, formXnn_and_F000]; decide
theorem seReg (x y : Reg) : Statement (.seReg x y) := by
  simp only [Statement, OpcodeRow.covers, opcodeRow, encode, formXyn_and_F00F]; decide
theorem ldReg (x y : Reg) : Statement (.ldReg x y) := by
  simp only [Statement, OpcodeRow.covers, opcodeRow, encode, formXyn_and_F00F]; decide
theorem orReg (x y : Reg) : Statement (.orReg x y) := by
  simp only [Statement, OpcodeRow.covers, opcodeRow, encode, formXyn_and_F00F]; decide
theorem andReg (x y : Reg) : Statement (.andReg x y) := by
  simp only [Statement, OpcodeRow.covers, opcodeRow, encode, formXyn_and_F00F]; decide
theorem xorReg (x y : Reg) : Statement (.xorReg x y) := by
  simp only [Statement, OpcodeRow.covers, opcodeRow, encode, formXyn_and_F00F]; decide
theorem addReg (x y : Reg) : Statement (.addReg x y) := by
  simp only [Statement, OpcodeRow.covers, opcodeRow, encode, formXyn_and_F00F]; decide
theorem sub (x y : Reg) : Statement (.sub x y) := by
  simp only [Statement, OpcodeRow.covers, opcodeRow, encode, formXyn_and_F00F]; decide
theorem shr (x y : Reg) : Statement (.shr x y) := by
  simp only [Statement, OpcodeRow.covers, opcodeRow, encode, formXyn_and_F00F]; decide
theorem subn (x y : Reg) : Statement (.subn x y) := by
  simp only [Statement, OpcodeRow.covers, opcodeRow, encode, formXyn_and_F00F]; decide
theorem shl (x y : Reg) : Statement (.shl x y) := by
  simp only [Statement, OpcodeRow.covers, opcodeRow, encode, formXyn_and_F00F]; decide
theorem sneReg (x y : Reg) : Statement (.sneReg x y) := by
  simp only [Statement, OpcodeRow.covers, opcodeRow, encode, formXyn_and_F00F]; decide
theorem drw (x y : Reg) (n : RowCount) : Statement (.drw x y n) := by
  simp only [Statement, OpcodeRow.covers, opcodeRow, encode, formXyn_and_F000]; decide
theorem skp (x : Reg) : Statement (.skp x) := by
  simp only [Statement, OpcodeRow.covers, opcodeRow, encode, formXnn_and_F0FF]; decide
theorem sknp (x : Reg) : Statement (.sknp x) := by
  simp only [Statement, OpcodeRow.covers, opcodeRow, encode, formXnn_and_F0FF]; decide
theorem ldVxDt (x : Reg) : Statement (.ldVxDt x) := by
  simp only [Statement, OpcodeRow.covers, opcodeRow, encode, formXnn_and_F0FF]; decide
theorem ldVxK (x : Reg) : Statement (.ldVxK x) := by
  simp only [Statement, OpcodeRow.covers, opcodeRow, encode, formXnn_and_F0FF]; decide
theorem ldDtVx (x : Reg) : Statement (.ldDtVx x) := by
  simp only [Statement, OpcodeRow.covers, opcodeRow, encode, formXnn_and_F0FF]; decide
theorem ldStVx (x : Reg) : Statement (.ldStVx x) := by
  simp only [Statement, OpcodeRow.covers, opcodeRow, encode, formXnn_and_F0FF]; decide
theorem addI (x : Reg) : Statement (.addI x) := by
  simp only [Statement, OpcodeRow.covers, opcodeRow, encode, formXnn_and_F0FF]; decide
theorem ldF (x : Reg) : Statement (.ldF x) := by
  simp only [Statement, OpcodeRow.covers, opcodeRow, encode, formXnn_and_F0FF]; decide
theorem ldB (x : Reg) : Statement (.ldB x) := by
  simp only [Statement, OpcodeRow.covers, opcodeRow, encode, formXnn_and_F0FF]; decide
theorem storeRegs (x : Reg) : Statement (.storeRegs x) := by
  simp only [Statement, OpcodeRow.covers, opcodeRow, encode, formXnn_and_F0FF]; decide
theorem loadRegs (x : Reg) : Statement (.loadRegs x) := by
  simp only [Statement, OpcodeRow.covers, opcodeRow, encode, formXnn_and_F0FF]; decide

end Sys2Proof.Laws.RowMatch
end

