-- ==== Sys2Proof/Laws/Step.lean ====
section
/-! SUPPORT. What a step is, by the host's next call, and what withFetchWord makes it run. -/

namespace Sys2Proof.Machine

theorem step_of_calls_nil {s : State} (h : s.calls = []) : step s = hostCall hwParams .tick s := by
  simp only [step, stepUnder, h]

theorem step_of_calls_cons {s : State} {c : HostCall} {rest : List HostCall} (h : s.calls = c :: rest) :
    step s = hostCall hwParams c { s with calls := rest } := by
  simp only [step, stepUnder, h]

/-- Everything a tick of this hardware can do, by what the fetch gives. -/
theorem tick_cases (s : State) :
    (s.pc.toNat ≤ 0xFFE ∧ ∃ w, w = opcodeOf (Memory.read s.mem s.pc.toNat) (Memory.read s.mem (s.pc.toNat + 1)) ∧
      ((∃ i, decodeWord w = .ok i ∧ tick hwParams s = exec i s) ∨
        ∃ e, decodeWord w = .error e ∧ tick hwParams s = .next (s.takeFatal (some w) ⟨.undefinedOpcode, w.toNat⟩))) ∨
    (0xFFE < s.pc.toNat ∧ tick hwParams s = .next (s.takeFatal none ⟨.fetchOutOfRange, max s.pc.toNat 0x1000⟩)) := by
  by_cases hp : s.pc.toNat ≤ 0xFFE
  · refine .inl ⟨hp, _, rfl, ?_⟩
    rw [tick, fetch_hw, if_pos hp]
    cases hd : decodeWord (opcodeOf (Memory.read s.mem s.pc.toNat) (Memory.read s.mem (s.pc.toNat + 1))) with
    | ok i => exact .inl ⟨i, rfl, by simp only [hd, execUnder_hw]⟩
    | error e => exact .inr ⟨e, rfl, by simp only [hd]⟩
  · exact .inr ⟨by omega, by rw [tick, fetch_hw, if_neg hp]⟩

theorem fetchPlace_le (pc : Word) : (fetchPlace pc).toNat ≤ 0xFFE := by
  unfold fetchPlace
  split
  · assumption
  · decide

/-- The word placed is the word fetched. -/
theorem fetch_placeWord {s : State} (hm : Memory.wf s.mem) (w : Word) :
    fetch hwParams (placeWord w s) = .ok w := by
  rw [fetch_hw, if_pos (show (placeWord w s).pc.toNat ≤ 0xFFE from fetchPlace_le s.pc)]
  simp only [placeWord, Memory.read_writeBytes hm.1, wordBytes, List.length_cons, List.length_nil]
  rw [dif_pos (by omega), dif_pos (by omega)]
  simp

/-- The step after withFetchWord is `exec` of the placed instruction. -/
theorem step_placeWord {s : State} (hm : Memory.wf s.mem) {w : Word} {i : Instr} (h : decodeWord w = .ok i) :
    step (placeWord w s) = exec i (placeWord w s) := by
  rw [step_of_calls_nil rfl, hostCall, whenRunning_running rfl, tick, fetch_placeWord hm w]
  simp only [h, execUnder_hw]

/-- Placing a word keeps the memory canonical. -/
theorem placeWord_wf {s : State} (hm : Memory.wf s.mem) (w : Word) : Memory.wf (placeWord w s).mem := by
  have := fetchPlace_le s.pc
  exact Memory.writeBytes_wf hm _ _ (by
    simp only [wordBytes, List.length_cons, List.length_nil, Config.memSize]; omega)

end Sys2Proof.Machine
end

