-- ==== Sys2Proof/WellFormed.lean ====
section
/-! DEFINITION. Well-formedness: of an instruction (every operand fits its field of the opcode, 30_encoding.md R71, R73)
and of a host call (the arguments the host must pass, 60_exceptions.md R191).

The types of the operands already have exactly the widths of their fields, so `Instr.wellFormed` refuses no term: the
check that can fail on this hardware is the host's (`HostCall.wellFormed`), and a 16-bit word that is no instruction is
refused by the decoder. -/

namespace Sys2Proof

/-- A value fits in a field of `width` bits. -/
def fits (width value : Nat) : Bool := value < 2 ^ width

/-- Every operand fits the field R71 gives it. -/
def Instr.wellFormed : Instr → Bool
  | .cls | .ret | .nop => true
  | .jp nnn | .call nnn | .ldI nnn | .jpV0 nnn => fits 12 nnn.toNat
  | .seImm x nn | .sneImm x nn | .ldImm x nn | .addImm x nn | .rnd x nn => fits 4 x.val && fits 8 nn.toNat
  | .seReg x y | .sneReg x y | .ldReg x y | .orReg x y | .andReg x y | .xorReg x y => fits 4 x.val && fits 4 y.val
  | .addReg x y | .sub x y | .shr x y | .subn x y | .shl x y => fits 4 x.val && fits 4 y.val
  | .drw x y n => fits 4 x.val && fits 4 y.val && fits 4 n.val
  | .skp x | .sknp x | .ldVxDt x | .ldVxK x | .ldDtVx x | .ldStVx x => fits 4 x.val
  | .addI x | .ldF x | .ldB x | .storeRegs x | .loadRegs x => fits 4 x.val

/-- The host must "pass a key index 0..15 and a payload of at most 3584 bytes, or accept the halt" (R191). -/
def Machine.HostCall.wellFormed : Machine.HostCall → Bool
  | .load data => data.length ≤ Config.loadMax
  | .keyDown index _ => index ≤ 15
  | .reset | .tick | .tickTimers | .getDisplay => true

end Sys2Proof
end

