-- ==== Sys2Proof/Tests/Slice0.lean ====
section
/-! SUPPORT. Tests. Each expected result is worked out from the spec: the words from the encodings of 30_encoding.md R73
and R75, the results from the vectors of 95_test_vectors.md (their ids stand in the comments) or from the rule named. -/

namespace Sys2Proof.Tests

open Sys2Proof Sys2Proof.Machine

/-! ## Helpers -/

/-- The outcome is a next state with this property. -/
def after (o : Outcome) (f : State → Bool) : Bool :=
  match o with
  | .next t => f t
  | .fault _ | .refused _ => false

/-- The reset state with these registers. -/
def regs (l : List (Reg × Byte)) : State := l.foldl (fun s p => s.writeV p.1 p.2) State.reset

/-- One step of s with the word placed at PC. -/
def run1 (w : Word) (s : State) : Outcome := step (placeWord w s)

/-- The state is HALTED with this record. -/
def haltedWith (c : Cause) (pc : Word) (op : Option Word) (info : Nat) (t : State) : Bool :=
  t.status == .halted ⟨c, pc, op, info⟩ && t.pc == pc

/-! ## Well-formedness: one ill-formed term for each check that can fail -/

theorem test_wf_load_too_long : (HostCall.load (List.replicate 3585 0)).wellFormed = false := by
  simp only [HostCall.wellFormed, List.length_replicate]; decide
theorem test_wf_load_longest : (HostCall.load (List.replicate 3584 0)).wellFormed = true := by
  simp only [HostCall.wellFormed, List.length_replicate]; decide
theorem test_wf_key_16 : (HostCall.keyDown 16 true).wellFormed = false := by decide
theorem test_wf_key_15 : (HostCall.keyDown 15 true).wellFormed = true := by decide
theorem test_fits_refuses : fits 4 16 = false ∧ fits 8 256 = false ∧ fits 12 4096 = false ∧ fits 4 15 = true := by decide
theorem test_wf_instr : (Instr.drw 15 15 15).wellFormed = true := by decide
theorem test_mem_unsorted : ¬ Memory.wf [(0x301, 1), (0x300, 1)] := by decide
theorem test_mem_repeated : ¬ Memory.wf [(0x300, 1), (0x300, 2)] := by decide
theorem test_mem_redundant : ¬ Memory.wf [(0x000, 0xF0)] := by decide
theorem test_mem_outside : ¬ Memory.wf [(0x1000, 1)] := by decide

/-! ## Decoding: each constructor, by a word written out from the spec's encoding -/

theorem test_decode_cls : decodeWord 0b0000000011100000 = .ok .cls := by decide
theorem test_decode_ret : decodeWord 0b0000000011101110 = .ok .ret := by decide
theorem test_decode_jp : decodeWord 0b0001_1010_1011_1100 = .ok (.jp 0xABC) := by decide
theorem test_decode_call : decodeWord 0b0010_0100_0000_0001 = .ok (.call 0x401) := by decide
theorem test_decode_seImm : decodeWord 0b0011_1010_0100_0010 = .ok (.seImm 0xA 0x42) := by decide
theorem test_decode_sneImm : decodeWord 0b0100_1010_0100_0010 = .ok (.sneImm 0xA 0x42) := by decide
theorem test_decode_seReg : decodeWord 0b0101_0001_0010_0000 = .ok (.seReg 1 2) := by decide
theorem test_decode_ldImm : decodeWord 0b0110_1010_0010_1111 = .ok (.ldImm 0xA 0x2F) := by decide
theorem test_decode_addImm : decodeWord 0b0111_0010_0010_0000 = .ok (.addImm 2 0x20) := by decide
theorem test_decode_ldReg : decodeWord 0b1000_0001_0101_0000 = .ok (.ldReg 1 5) := by decide
theorem test_decode_orReg : decodeWord 0b1000_0001_0010_0001 = .ok (.orReg 1 2) := by decide
theorem test_decode_andReg : decodeWord 0b1000_0001_0010_0010 = .ok (.andReg 1 2) := by decide
theorem test_decode_xorReg : decodeWord 0b1000_0001_0010_0011 = .ok (.xorReg 1 2) := by decide
theorem test_decode_addReg : decodeWord 0b1000_1111_0010_0100 = .ok (.addReg 0xF 2) := by decide
theorem test_decode_sub : decodeWord 0b1000_0001_0010_0101 = .ok (.sub 1 2) := by decide
theorem test_decode_shr : decodeWord 0b1000_0001_0010_0110 = .ok (.shr 1 2) := by decide
theorem test_decode_subn : decodeWord 0b1000_0001_0010_0111 = .ok (.subn 1 2) := by decide
theorem test_decode_shl : decodeWord 0b1000_0001_0010_1110 = .ok (.shl 1 2) := by decide
theorem test_decode_sneReg : decodeWord 0b1001_0001_0010_0000 = .ok (.sneReg 1 2) := by decide
theorem test_decode_ldI : decodeWord 0b1010_0010_1111_0000 = .ok (.ldI 0x2F0) := by decide
theorem test_decode_jpV0 : decodeWord 0b1011_0011_0000_0000 = .ok (.jpV0 0x300) := by decide
theorem test_decode_rnd : decodeWord 0b1100_0011_0000_1111 = .ok (.rnd 3 0x0F) := by decide
theorem test_decode_drw : decodeWord 0b1101_0001_0010_0101 = .ok (.drw 1 2 5) := by decide
theorem test_decode_skp : decodeWord 0b1110_0100_1001_1110 = .ok (.skp 4) := by decide
theorem test_decode_sknp : decodeWord 0b1110_0100_1010_0001 = .ok (.sknp 4) := by decide
theorem test_decode_ldVxDt : decodeWord 0b1111_0101_0000_0111 = .ok (.ldVxDt 5) := by decide
theorem test_decode_ldVxK : decodeWord 0b1111_0010_0000_1010 = .ok (.ldVxK 2) := by decide
theorem test_decode_ldDtVx : decodeWord 0b1111_0001_0001_0101 = .ok (.ldDtVx 1) := by decide
theorem test_decode_ldStVx : decodeWord 0b1111_0001_0001_1000 = .ok (.ldStVx 1) := by decide
theorem test_decode_addI : decodeWord 0b1111_0010_0001_1110 = .ok (.addI 2) := by decide
theorem test_decode_ldF : decodeWord 0b1111_0010_0010_1001 = .ok (.ldF 2) := by decide
theorem test_decode_ldB : decodeWord 0b1111_0001_0011_0011 = .ok (.ldB 1) := by decide
theorem test_decode_storeRegs : decodeWord 0b1111_0011_0101_0101 = .ok (.storeRegs 3) := by decide
theorem test_decode_loadRegs : decodeWord 0b1111_0010_0110_0101 = .ok (.loadRegs 2) := by decide
theorem test_decode_nop : decodeWord 0b0000000000000000 = .ok .nop := by decide
/-- CF22, CF23, CF24, AL32, H3, H4: undefined words are refused by name. -/
theorem test_decode_undefined :
    [0x0123, 0x00E1, 0x5121, 0x9121, 0x8128, 0x812D, 0x812F, 0xE09F, 0xFFFF, 0xF000].all
      (fun w => decodeWord w == .error (.undefinedOpcode w)) = true := by decide
/-- The byte at the lower address is the high byte, and two bytes are consumed (R54, R78). -/
theorem test_decode_bytes : decodeBytes [0x22, 0x08, 0xAA] = .ok (.call 0x208, [0xAA]) := by decide
theorem test_decode_truncated : decodeBytes [0x22] = .error .truncated := by decide
theorem test_encode_drw : encode (.drw 1 2 5) = 0xD125 ∧ encode (.rnd 3 0x0F) = 0xC30F := by decide

/-! ## Control flow -/

/-- CF1. -/
theorem test_ret : after (run1 0x00EE { State.reset with pc := 0x300, sp := 2, stack := (State.reset.stack.set 0 0x202).set 1 0x456 })
    (fun t => t.pc == 0x456 && t.sp == 1 && t.stack[1] == 0x456) = true := by decide
/-- CF2. -/
theorem test_ret_underflow : after (run1 0x00EE State.reset) (haltedWith .stackUnderflow 0x200 (some 0x00EE) 0) = true := by
  decide
/-- CF3. -/
theorem test_jp : after (run1 0x1ABC State.reset) (fun t => t.pc == 0xABC) = true := by decide
/-- CF6. -/
theorem test_call : after (run1 0x2400 { State.reset with pc := 0x202, sp := 15 })
    (fun t => t.pc == 0x400 && t.sp == 16 && t.stack[15] == 0x204) = true := by decide
/-- CF7. -/
theorem test_call_overflow : after (run1 0x2400 { State.reset with pc := 0x202, sp := 16 })
    (haltedWith .stackOverflow 0x202 (some 0x2400) 16) = true := by decide
/-- CF8 and CF9. -/
theorem test_jpV0 : after (run1 0xB300 (regs [(0, 0x10)])) (fun t => t.pc == 0x310) = true := by decide
theorem test_jpV0_unmasked : after (run1 0xBFFF (regs [(0, 0xFF)])) (fun t => t.pc == 0x10FE && t.status == .running) = true := by
  decide
/-- CF10, CF11. -/
theorem test_seImm_skips : after (run1 0x3A42 (regs [(0xA, 0x42)])) (fun t => t.pc == 0x204) = true := by decide
theorem test_seImm_stays : after (run1 0x3A42 (regs [(0xA, 0x41)])) (fun t => t.pc == 0x202) = true := by decide
/-- CF12, CF13. -/
theorem test_sneImm_stays : after (run1 0x4A42 (regs [(0xA, 0x42)])) (fun t => t.pc == 0x202) = true := by decide
theorem test_sneImm_skips : after (run1 0x4A42 (regs [(0xA, 0x41)])) (fun t => t.pc == 0x204) = true := by decide
/-- CF14, CF15. -/
theorem test_seReg_skips : after (run1 0x5120 (regs [(1, 7), (2, 7)])) (fun t => t.pc == 0x204) = true := by decide
theorem test_seReg_stays : after (run1 0x5120 (regs [(1, 7), (2, 8)])) (fun t => t.pc == 0x202) = true := by decide
/-- CF17, CF18. -/
theorem test_sneReg_stays : after (run1 0x9120 (regs [(1, 7), (2, 7)])) (fun t => t.pc == 0x202) = true := by decide
theorem test_sneReg_skips : after (run1 0x9120 (regs [(1, 7), (2, 8)])) (fun t => t.pc == 0x204) = true := by decide
/-- CF21. -/
theorem test_nop : after (run1 0x0000 State.reset) (fun t => t.pc == 0x202 && t.v == State.reset.v) = true := by decide

/-! ## Arithmetic -/

/-- AL1. -/
theorem test_ldImm : after (run1 0x6AFF State.reset) (fun t => t.readV 0xA == 0xFF && t.pc == 0x202) = true := by decide
/-- AL2. -/
theorem test_addImm : after (run1 0x7AFF (regs [(0xA, 2), (0xF, 5)])) (fun t => t.readV 0xA == 1 && t.readV VF == 5) = true := by
  decide
/-- AL4. -/
theorem test_ldReg : after (run1 0x8120 (regs [(2, 0x33)])) (fun t => t.readV 1 == 0x33) = true := by decide
/-- AL5. -/
theorem test_orReg : after (run1 0x8121 (regs [(1, 0xF0), (2, 0x0F), (0xF, 1)]))
    (fun t => t.readV 1 == 0xFF && t.readV VF == 1) = true := by decide
/-- AL6. -/
theorem test_andReg : after (run1 0x8122 (regs [(1, 0xF0), (2, 0x3C)])) (fun t => t.readV 1 == 0x30) = true := by decide
/-- AL7. -/
theorem test_xorReg : after (run1 0x8123 (regs [(1, 0xFF), (2, 0x0F)])) (fun t => t.readV 1 == 0xF0) = true := by decide
/-- AL9, AL11. -/
theorem test_addReg : after (run1 0x8124 (regs [(1, 0xFF), (2, 1)])) (fun t => t.readV 1 == 0 && t.readV VF == 1) = true := by
  decide
theorem test_addReg_into_VF : after (run1 0x8F24 (regs [(0xF, 0xFF), (2, 1)])) (fun t => t.readV VF == 1) = true := by decide
/-- AL15, AL16. -/
theorem test_sub : after (run1 0x8125 (regs [(1, 3), (2, 5)])) (fun t => t.readV 1 == 0xFE && t.readV VF == 0) = true := by decide
theorem test_sub_equal : after (run1 0x8125 (regs [(1, 5), (2, 5)])) (fun t => t.readV 1 == 0 && t.readV VF == 1) = true := by
  decide
/-- AL20, AL21. -/
theorem test_shr : after (run1 0x8126 (regs [(1, 0x80), (2, 0xFF)])) (fun t => t.readV 1 == 0x40 && t.readV VF == 0) = true := by
  decide
theorem test_shr_into_VF : after (run1 0x8F06 (regs [(0xF, 3)])) (fun t => t.readV VF == 1) = true := by decide
/-- AL22, AL23. -/
theorem test_subn : after (run1 0x8127 (regs [(1, 3), (2, 5)])) (fun t => t.readV 1 == 2 && t.readV VF == 1) = true := by decide
theorem test_subn_borrow : after (run1 0x8127 (regs [(1, 5), (2, 3)])) (fun t => t.readV 1 == 0xFE && t.readV VF == 0) = true := by
  decide
/-- AL26, AL28. -/
theorem test_shl : after (run1 0x810E (regs [(1, 0x81)])) (fun t => t.readV 1 == 2 && t.readV VF == 1) = true := by decide
theorem test_shl_into_VF : after (run1 0x8F0E (regs [(0xF, 0x80)])) (fun t => t.readV VF == 1) = true := by decide
/-- AL29, with the draw A7 given; AL30, for whatever is drawn. -/
theorem test_rnd_body : (randomBody 0xA7 3 0x0F State.reset).readV 3 = 0x07 := by decide
theorem test_rnd_zero_mask : execRnd 3 0 State.reset = .next (randomBody (Config.randomByte 0) 3 0 State.reset.advancePc) ∧
    (randomBody (Config.randomByte 0) 3 0 State.reset.advancePc).readV 3 = 0 :=
  ⟨rfl, (State.readV_writeV_self State.reset.advancePc 3 (Config.randomByte 0 &&& 0)).trans BitVec.and_zero⟩

/-! ## Index register and memory -/

/-- IM1. -/
theorem test_ldI : after (run1 0xA2F0 State.reset) (fun t => t.i == 0x2F0) = true := by decide
/-- IM3, IM4. -/
theorem test_addI_wraps : after (run1 0xF21E { regs [(2, 1)] with i := 0xFFFF }) (fun t => t.i == 0) = true := by decide
theorem test_addI_no_12_bit_wrap : after (run1 0xF21E { regs [(2, 1)] with i := 0x0FFF })
    (fun t => t.i == 0x1000 && t.readV VF == 0) = true := by decide
/-- IM5, IM7. -/
theorem test_ldF : after (run1 0xF029 (regs [(0, 0x0A)])) (fun t => t.i == 0x32) = true := by decide
theorem test_ldF_unmasked : after (run1 0xF029 (regs [(0, 0xFF)])) (fun t => t.i == 0x4FB) = true := by decide
/-- IM8, IM11. -/
theorem test_ldB : after (run1 0xF133 { regs [(1, 0x9C)] with i := 0x300 })
    (fun t => Memory.readBytes t.mem 0x300 3 == [1, 5, 6]) = true := by decide
theorem test_ldB_past_top : after (run1 0xF133 { regs [(1, 1)] with i := 0xFFE })
    (fun t => haltedWith .dataOutOfRange 0x200 (some 0xF133) 0x1000 t && Memory.readBytes t.mem 0xFFE 2 == [0, 0]) = true := by
  decide
/-- IM12, IM14. -/
theorem test_storeRegs : after (run1 0xF355 { regs [(0, 1), (1, 2), (2, 3), (3, 4)] with i := 0x300 })
    (fun t => t.mem == [(0x200, 0xF3), (0x201, 0x55), (0x300, 1), (0x301, 2), (0x302, 3), (0x303, 4)] && t.i == 0x300) = true := by
  decide
theorem test_storeRegs_past_top : after (run1 0xF155 { regs [(0, 9), (1, 8)] with i := 0xFFF })
    (fun t => haltedWith .dataOutOfRange 0x200 (some 0xF155) 0x1000 t && Memory.read t.mem 0xFFF == 0) = true := by decide
/-- IM16, IM18. -/
theorem test_loadRegs : after (run1 0xF265 { State.reset with i := 0x300, mem := [(0x300, 0xAA), (0x301, 0xBB), (0x302, 0xCC), (0x303, 0xDD)] })
    (fun t => t.readV 0 == 0xAA && t.readV 2 == 0xCC && t.readV 3 == 0 && t.i == 0x300) = true := by decide
theorem test_loadRegs_past_top : after (run1 0xF065 { State.reset with i := 0x1000 })
    (haltedWith .dataOutOfRange 0x200 (some 0xF065) 0x1000) = true := by decide
/-- IM20, under LOW_GUARD = true. -/
theorem test_low_guard : storeRegsBody { hwParams with lowGuard := true } 0 { regs [(0, 5)] with i := 0x100 } =
    .error ⟨.lowMemoryAccess, 0x100⟩ := by decide +kernel
/-- IM21: the default permits it. -/
theorem test_low_store_permitted : after (run1 0xF055 { regs [(0, 5)] with i := 0x100 })
    (fun t => Memory.read t.mem 0x100 == 5) = true := by decide
/-- Writing the reset contents back removes the entry. -/
theorem test_mem_canonical : Memory.write (Memory.write [] 0x000 0x12) 0x000 0xF0 = [] := by decide

/-! ## Display -/

/-- DS1. -/
theorem test_cls : after (run1 0x00E0 { State.reset with disp := Display.toggle State.reset.disp (63, 31) })
    (fun t => !Display.lit t.disp (63, 31)) = true := by decide
/-- DS11: wraps on both axes. -/
theorem test_drw_wraps : after (run1 0xD012 { regs [(0, 0x3E), (1, 0x1F)] with i := 0x300, mem := [(0x300, 0xE0), (0x301, 0x81)] })
    (fun t => [(62, 31), (63, 31), (0, 31), (62, 0), (5, 0)].all (Display.lit t.disp) && !Display.lit t.disp (63, 0) &&
      t.readV VF == 0) = true := by decide
/-- DS9: x = F, and DS4's collision: the lit pixel (2, 0) goes off. -/
theorem test_drw_collision : after (run1 0xDF01 { regs [(0xF, 2)] with
      i := 0x300, mem := [(0x300, 0x80)], disp := Display.toggle State.reset.disp (2, 0) })
    (fun t => !Display.lit t.disp (2, 0) && t.readV VF == 1) = true := by decide

/-- R151, log entry 25: over a lit pixel the first draw collides and the second does not. -/
theorem test_drw_twice_over_lit :
    let s := { State.reset with i := 0x300, mem := [(0x300, 0x80)], disp := Display.toggle State.reset.disp (0, 0) }
    ((drawSprite 0 1 1 s).readV VF, (drawSprite 0 1 1 (drawSprite 0 1 1 s)).readV VF) = (1, 0) := by decide

/-! ## Keys and timers -/

/-- KT1, KT5. -/
theorem test_skp : after (run1 0xE19E { regs [(1, 5)] with keys := State.reset.keys.set 5 true }) (fun t => t.pc == 0x204) = true := by
  decide
theorem test_skp_out_of_range : after (run1 0xE19E (regs [(1, 0x10)]))
    (haltedWith .keyIndexOutOfRange 0x200 (some 0xE19E) 0x10) = true := by decide
/-- KT3, KT4. -/
theorem test_sknp_stays : after (run1 0xE1A1 { regs [(1, 5)] with keys := State.reset.keys.set 5 true })
    (fun t => t.pc == 0x202) = true := by decide
theorem test_sknp_skips : after (run1 0xE1A1 (regs [(1, 5)])) (fun t => t.pc == 0x204) = true := by decide
/-- KT7. -/
theorem test_ldVxDt : after (run1 0xF307 { State.reset with dt := 0x2A }) (fun t => t.readV 3 == 0x2A && t.pc == 0x202) = true := by
  decide
/-- KT8, KT9. -/
theorem test_ldVxK_stalls : after (run1 0xF20A State.reset) (fun t => t.pc == 0x200 && t.readV 2 == 0) = true := by decide
theorem test_ldVxK_lowest : after (run1 0xF20A { State.reset with keys := (State.reset.keys.set 9 true).set 3 true })
    (fun t => t.pc == 0x202 && t.readV 2 == 3) = true := by decide
/-- KT11, KT12. -/
theorem test_ldDtVx : after (run1 0xF315 (regs [(3, 0x3C)])) (fun t => t.dt == 0x3C) = true := by decide
theorem test_ldStVx : after (run1 0xF318 (regs [(3, 2)])) (fun t => t.st == 2) = true := by decide

/-! ## Fetch and the host's calls -/

/-- CF22: no SYS. -/
theorem test_undefined_halts : after (run1 0x0123 State.reset) (haltedWith .undefinedOpcode 0x200 (some 0x0123) 0x0123) = true := by
  decide
/-- H1, H2. -/
theorem test_fetch_FFF : after (step { State.reset with pc := 0xFFF }) (haltedWith .fetchOutOfRange 0xFFF none 0x1000) = true := by
  decide
theorem test_fetch_10FE : after (step { State.reset with pc := 0x10FE }) (haltedWith .fetchOutOfRange 0x10FE none 0x10FE) = true := by
  decide
/-- H6: an odd PC. -/
theorem test_fetch_odd : after (run1 0x607F { State.reset with pc := 0x201 }) (fun t => t.readV 0 == 0x7F && t.pc == 0x203) = true := by
  decide
/-- KT14. -/
theorem test_tick_timers : after (step { State.reset with dt := 3, st := 1, calls := [.tickTimers] })
    (fun t => t.dt == 2 && t.st == 0 && t.calls == []) = true := by decide
theorem test_beep : beep { State.reset with st := 1 } = true ∧ beep { State.reset with st := 2 } = false := by decide
/-- KT18. -/
theorem test_key_down_16 : after (step { State.reset with calls := [.keyDown 16 true] })
    (haltedWith .keyEventIndexOutOfRange 0x200 none 16) = true := by decide
/-- H7. -/
theorem test_halted_tick : step { State.reset with status := .halted ⟨.stackUnderflow, 0x200, some 0x00EE, 0⟩ } =
    .fault (.coreHalted ⟨.stackUnderflow, 0x200, some 0x00EE, 0⟩) := by rfl
/-- R203: load, then the first tick runs the word at 0x200. -/
theorem test_load_then_tick : after (Sys2Proof.core.run 2 { State.reset with calls := [.load [0x6A, 0x2F]] })
    (fun t => t.readV 0xA == 0x2F && t.pc == 0x202) = true := by decide
/-- R10, R200: another FONT_ROM is what reset stores. -/
theorem test_reset_font_parameter :
    Memory.readBytes (State.hostReset { hwParams with fontRom := .replicate 80 0xAA } State.reset).mem 0x04F 2 = [0xAA, 0x00] := by
  decide
/-- R128 under SHIFT_SRC_VY = true: the tick shifts Vy. -/
theorem test_tick_shift_src_vy : after (tick { hwParams with shiftSrcVy := true } (placeWord 0x8126 (regs [(1, 0x80), (2, 0x03)])))
    (fun t => t.readV 1 == 0x01 && t.readV VF == 1) = true := by decide
/-- The table word runs as the first instruction after reset. -/
theorem test_withFetchWord : step (State.reset.withFetchWord 16 0xD125) = exec (.drw 1 2 5) (State.reset.withFetchWord 16 0xD125) :=
  step_placeWord (by decide) (by decide)

/-! ## Witnesses: for every statement with hypotheses, a state and operands that meet them, at the edges of each clause -/

/-- A canonical memory that lists a byte. -/
def someMem : Memory := [(0x300, 0x05)]
def someState : State := { State.reset with mem := someMem, i := 0x300 }
/-- Some fault record. -/
def someRecord : FaultRecord := ⟨.stackUnderflow, 0x200, some 0x00EE, 0⟩
def haltedState (c : List HostCall) : State := { State.reset with status := .halted someRecord, calls := c }

theorem witness_DecodedWordReencodes : decodeWord 0xD125 = .ok (.drw 1 2 5) := by decide
theorem witness_DecoderFollowsOpcodeTable : (⟨0x8006, 0xF00F⟩ : OpcodeRow) ∈ opcodeRows ∧
    (⟨0x8006, 0xF00F⟩ : OpcodeRow).covers 0x8126 = true ∧ decodeWord 0x8126 = .ok (.shr 1 2) ∧
    ∀ r ∈ opcodeRows, r.covers 0x5121 = false := by decide
theorem witness_StepRunsDecodedInstruction :
    let s := { State.reset with pc := 0xFFE }
    TickIsNext s [] ∧ s.Running ∧ s.pc.toNat ≤ 0xFFE ∧ decodeWord s.wordAtPc = .ok .nop :=
  ⟨.inl ⟨rfl, rfl⟩, rfl, by decide, by decide⟩
theorem witness_StepRunsDecodedInstruction_listed_tick :
    let s := { State.reset with calls := [.tick, .tickTimers] }
    TickIsNext s [.tickTimers] ∧ s.Running ∧ s.pc.toNat ≤ 0xFFE ∧ decodeWord s.wordAtPc = .ok .nop :=
  ⟨.inr rfl, rfl, by decide, by decide⟩
theorem witness_UndefinedWordHalts :
    let s := { State.reset with mem := [(0x200, 0x51), (0x201, 0x21)] }
    TickIsNext s [] ∧ s.Running ∧ s.pc.toNat ≤ 0xFFE ∧ ∀ r ∈ opcodeRows, r.covers s.wordAtPc = false :=
  ⟨.inl ⟨rfl, rfl⟩, rfl, by decide, by decide⟩
theorem witness_FetchPastTopHalts :
    let s := { State.reset with pc := 0xFFF }
    TickIsNext s [] ∧ s.Running ∧ 0xFFE < s.pc.toNat := ⟨.inl ⟨rfl, rfl⟩, rfl, by decide⟩
theorem witness_RunningTickAlwaysCompletes : TickIsNext State.reset [] ∧ State.reset.Running := ⟨.inl ⟨rfl, rfl⟩, rfl⟩
theorem witness_InstructionFaultsArePrecise : State.reset.Running ∧
    exec .ret State.reset = .next { State.reset with status := .halted ⟨.stackUnderflow, 0x200, some 0x00EE, 0⟩ } := ⟨rfl, rfl⟩
theorem witness_InstructionsWriteOnlyWhatTheTablesSay : exec .nop State.reset = .next { State.reset with pc := 0x202 } := rfl
theorem witness_OnlyRandomReadsTheDraw : (∀ x nn, Instr.nop ≠ .rnd x nn) ∧
    exec .nop State.reset = .next { State.reset with pc := 0x202 } := ⟨nofun, rfl⟩
theorem witness_StepKeepsMachineInvariant : someState.Inv ∧ step someState = .next { someState with pc := 0x202 } :=
  ⟨⟨by decide, by decide, by decide⟩, rfl⟩
theorem witness_StepKeepsHaltRecordSound : (haltedState [.getDisplay]).HaltRecordSound ∧
    step (haltedState [.getDisplay]) = .next (haltedState []) := by
  refine ⟨fun r h => ?_, rfl⟩
  cases h
  decide
theorem witness_CanonicalMemoryIsFixedByItsReads : Memory.wf someMem ∧ ∀ a, Memory.read someMem a = Memory.read someMem a :=
  ⟨by decide, fun _ => rfl⟩
theorem witness_ResetCallRestoresConstructedState : (haltedState [.reset, .tick]).calls = .reset :: [.tick] := rfl
theorem witness_HaltedCoreAcceptsOnlyResetAndDisplay : (haltedState []).status = .halted someRecord ∧ TickIsNext (haltedState []) [] ∧
    (haltedState [.tickTimers]).calls = .tickTimers :: [] ∧ (haltedState [.keyDown 15 true]).calls = .keyDown 15 true :: [] ∧
    (haltedState [.load []]).calls = .load [] :: [] ∧ (haltedState [.getDisplay]).calls = .getDisplay :: [] ∧
    (haltedState [.reset]).calls = .reset :: [] := ⟨rfl, .inl ⟨rfl, rfl⟩, rfl, rfl, rfl, rfl, rfl⟩
theorem witness_TickTimersCountsDownAndBeeps :
    let s := { State.reset with st := 1, calls := [.tickTimers] }
    s.calls = .tickTimers :: [] ∧ s.Running := ⟨rfl, rfl⟩
theorem witness_KeyDownSetsOneLevel :
    let s := { State.reset with calls := [.keyDown 15 true] }
    s.calls = .keyDown 15 true :: [] ∧ s.Running ∧ 15 ≤ 15 := ⟨rfl, rfl, le_rfl⟩
theorem witness_KeyDownSetsOneLevel_fatal :
    let s := { State.reset with calls := [.keyDown 16 true] }
    s.calls = .keyDown 16 true :: [] ∧ s.Running ∧ 15 < 16 := ⟨rfl, rfl, by decide⟩
theorem witness_GetDisplayReturnsPixels : (haltedState [.getDisplay]).calls = .getDisplay :: [] := rfl
theorem witness_LoadCopiesImage :
    let data : List Byte := List.replicate 3584 0x12
    let s := { someState with calls := [.load data] }
    s.calls = .load data :: [] ∧ s.Running ∧ Memory.wf s.mem ∧ data.length ≤ 3584 :=
  ⟨rfl, rfl, show Memory.wf someMem by decide, List.length_replicate.le⟩
theorem witness_LoadCopiesImage_fatal :
    let data : List Byte := List.replicate 3585 0x12
    let s := { someState with calls := [.load data] }
    s.calls = .load data :: [] ∧ s.Running ∧ Memory.wf s.mem ∧ 3584 < data.length :=
  ⟨rfl, rfl, show Memory.wf someMem by decide, Nat.lt_of_lt_of_eq (by decide) List.length_replicate.symm⟩
theorem witness_ReturnPopsTopEntry : 1 ≤ ({ State.reset with sp := 1 } : State).sp.val ∧ State.reset.sp.val = 0 := by decide
theorem witness_CallPushesReturnAddress :
    ({ State.reset with sp := 15 } : State).sp.val ≤ 15 ∧ ({ State.reset with sp := 16 } : State).sp.val = 16 := by decide
theorem witness_StackIsLastInFirstOut : State.reset.sp.val + (List.replicate 16 (0x202 : Word)).length ≤ 16 ∧
    16 < State.reset.sp.val + (List.replicate 17 (0x202 : Word)).length := by decide
theorem witness_SelfJumpAndKeyWaitAreFixedPoints_jump :
    let s := { State.reset with mem := [(0x200, 0x12)] }
    s.calls = [] ∧ s.Running ∧ s.pc.toNat ≤ 0xFFE ∧ ∃ nnn, decodeWord s.wordAtPc = .ok (.jp nnn) ∧ nnn.toNat = s.pc.toNat :=
  ⟨rfl, rfl, by decide, 0x200, by decide, by decide⟩
theorem witness_SelfJumpAndKeyWaitAreFixedPoints_wait :
    let s := { State.reset with mem := [(0x200, 0xF2), (0x201, 0x0A)] }
    s.calls = [] ∧ s.Running ∧ s.pc.toNat ≤ 0xFFE ∧ (∃ x, decodeWord s.wordAtPc = .ok (.ldVxK x)) ∧
      ∀ k : Fin 16, s.keys[k] = false :=
  ⟨rfl, rfl, by decide, ⟨2, by decide⟩, by decide⟩
theorem witness_flag_operands : (0 : Reg) ≠ VF ∧ (1 : Reg) ≠ VF := by decide
theorem witness_FlagWritersLeaveZeroOrOne : writesFlag (.addReg 1 2) = true ∧ State.reset.Running ∧
    ∃ t, exec (.addReg 1 2) State.reset = .next t ∧ t.Running := ⟨rfl, rfl, _, rfl, rfl⟩
theorem witness_HistoricalVariantsFollowParameters :
    let p : Config.Params := { hwParams with shiftSrcVy := true, ldstIncI := true }
    p.shiftSrcVy = true ∧ p.ldstIncI = true ∧ (0 : Reg) ≠ VF ∧ (∃ t, storeRegsBody p 2 someState = .ok t) ∧
      ∃ t, loadRegsBody p 2 someState = .ok t := ⟨rfl, rfl, by decide, ⟨_, rfl⟩, ⟨_, rfl⟩⟩
theorem witness_LowGuardMakesLowAccessesFatal :
    let p : Config.Params := { hwParams with lowGuard := true }
    let s := { State.reset with pc := 0x1FF, i := 0x04F }
    p.lowGuard = true ∧ s.pc.toNat < 0x200 ∧ s.base < 0x200 ∧ s.base ≤ 0x04F ∧ s.base + (0 : Reg).val ≤ 0x04F ∧
      (1 ≤ (1 : Reg).val ∧ 1 < (2 : RowCount).val ∧ 0x050 ≤ s.base + 1 ∧ s.base + 1 < 0x200 ∧ ∀ j < 1, s.base + j < 0x050) := by
  decide
theorem witness_StoreDecimalDigits :
    let s := { someState with i := 0xFFD }
    let u := { someState with i := 0xFFE }
    let w := { someState with i := 0x1FF }
    Memory.wf s.mem ∧ s.base + 2 ≤ 0xFFF ∧ Memory.wf u.mem ∧ 0xFFF < u.base + 2 ∧ Memory.wf w.mem ∧ w.base < 0x200 := by decide
theorem witness_StoreRegisterBlock :
    let s := { someState with i := 0xFF0 }
    let u := { someState with i := 0xFF1 }
    Memory.wf s.mem ∧ s.base + (15 : Reg).val ≤ 0xFFF ∧ (15 : Reg) ≤ 15 ∧ Memory.wf u.mem ∧ 0xFFF < u.base + (15 : Reg).val := by
  decide
theorem witness_LoadRegisterBlock :
    ({ State.reset with i := 0xFF0 } : State).base + (15 : Reg).val ≤ 0xFFF ∧
      0xFFF < ({ State.reset with i := 0xFF1 } : State).base + (15 : Reg).val := by decide
theorem witness_StoreThenLoadRestoresRegisters : ∃ t u : State, Memory.wf someState.mem ∧ someState.base + (2 : Reg).val ≤ 0xFFF ∧
    exec (.storeRegs 2) someState = .next t ∧ u.mem = t.mem ∧ u.i = t.i := by
  refine ⟨_, _, by decide, by decide, rfl, rfl, rfl⟩
theorem witness_StoredInstructionIsFetchedNext :
    let s := { someState with i := 0x202 }
    Memory.wf s.mem ∧ 1 ≤ (1 : Reg).val ∧ s.base = s.pc.toNat + 2 ∧ s.base + (1 : Reg).val ≤ 0xFFF := by decide
theorem witness_DrawTogglesSpritePixels : SpriteInRange { State.reset with i := 0x2000 } 0 ∧
    SpriteInRange { State.reset with i := 0xFF1 } 15 ∧
    SpriteCovers { State.reset with i := 0x300, mem := [(0x300, 0x80)] } 0 1 1 (0, 0) :=
  ⟨.inl rfl, .inr (by decide), 0, 0, by decide, by decide, by decide, by decide, by decide⟩
theorem witness_DrawOutOfRangeHalts : 1 ≤ (2 : RowCount).val ∧ 0xFFF < ({ State.reset with i := 0xFFF } : State).base + (2 : RowCount).val - 1 := by
  decide
theorem witness_DrawTwiceRestoresDisplay : (0 : Reg) ≠ VF ∧ (14 : Reg) ≠ VF ∧
    SpriteInRange { State.reset with i := 0xFFB } 5 ∧ ∀ p, Display.lit State.reset.disp p = false :=
  ⟨by decide, by decide, .inr (by decide), Display.lit_clear⟩
theorem witness_SpriteTargetsAreDistinct : (List.replicate 15 (0xFF : Byte)).length ≤ 15 := by decide
theorem witness_KeySkipsReadLevel :
    ((regs [(1, 15)]).readV 1).toNat ≤ 15 ∧ 15 < ((regs [(1, 16)]).readV 1).toNat := by decide
theorem witness_FontParameterActsOnlyAtReset : HostCall.tick ≠ .reset := by decide
theorem witness_TickFollowsItsParameters :
    let p : Config.Params := { hwParams with lowGuard := true }
    let s := { State.reset with pc := 0x1FF }
    s.Running ∧ p.lowGuard = true ∧ s.pc.toNat < 0x200 ∧ State.reset.Running ∧ 0x200 ≤ State.reset.pc.toNat ∧
      State.reset.pc.toNat ≤ 0xFFE ∧ decodeWord State.reset.wordAtPc = .ok .nop :=
  ⟨rfl, rfl, by decide, rfl, by decide, by decide, by decide⟩
theorem witness_WaitForKey :
    let s := { State.reset with keys := (State.reset.keys.set 9 true).set 3 true }
    (s.keys[(3 : Reg)] = true ∧ ∀ j : Reg, j < 3 → s.keys[j] = false) ∧ ∀ k : Reg, State.reset.keys[k] = false := by decide

end Sys2Proof.Tests
end

section
/-! The host calls `get_display` and `tick_timers` (60_exceptions.md R180, R188). -/

namespace Sys2Proof.Machine

/-! ### get_display: the snapshot by flat index -/

/-- The rows end to end are the library's flattening of a vector of vectors, whose entries are known by index. -/
theorem Display.snapshot_eq_toList_flatten (d : Display) : Display.snapshot d = d.flatten.toList := by
  simp only [Display.snapshot, Vector.flatten, Vector.toList, Array.toList_flatten, Array.toList_map, List.map_map]
  rfl

@[simp] theorem Display.length_snapshot (d : Display) : (Display.snapshot d).length = 2048 := by
  rw [Display.snapshot_eq_toList_flatten, Vector.length_toList]

/-- Row and column are the quotient and the remainder of the flat index by the width 64. -/
theorem Display.getElem?_snapshot_flat (d : Display) (p : Pixel) :
    (Display.snapshot d)[p.flat]? = some (Display.lit d p) := by
  obtain ⟨px, py⟩ := p
  have hlt : px.val + 64 * py.val < 32 * 64 := by omega
  have hrow : (px.val + 64 * py.val) / 64 = py.val := by omega
  have hcol : (px.val + 64 * py.val) % 64 = px.val := by omega
  rw [Display.snapshot_eq_toList_flatten, Vector.getElem?_toList, Pixel.flat, Vector.getElem?_eq_getElem hlt,
    Vector.getElem_flatten]
  simp only [hrow, hcol, Display.lit, Fin.getElem_fin]

/-- Settles O22: the step hands the state on, and the snapshot is read by its flat index. -/
theorem getDisplayReturnsPixels : Obligations.GetDisplayReturnsPixels := by
  intro s rest hcalls
  exact ⟨step_of_calls_cons hcalls, Display.snapshot s.disp, rfl, Display.length_snapshot s.disp,
    Display.getElem?_snapshot_flat s.disp⟩

/-! ### tick_timers: both timers count down -/

/-- On numbers `countDown` is the truncated subtraction of 1. -/
theorem toNat_countDown (t : Byte) : (countDown t).toNat = t.toNat - 1 := by
  by_cases h : t = 0
  · simp [countDown, h]
  · rw [countDown, if_neg h]
    bv_omega

theorem step_tickTimers {s : State} {rest : List HostCall} (hcalls : s.calls = .tickTimers :: rest)
    (hrun : s.Running) : step s = .next (tickTimers { s with calls := rest }) := by
  rw [step_of_calls_cons hcalls, hostCall]
  exact whenRunning_running hrun _

/-- `tick_timers` writes the two timers and nothing else. -/
theorem tickTimers_frame (s : State) (rest : List HostCall) :
    Frame [] [.delay, .sound, .calls] s (tickTimers { s with calls := rest }) := by
  refine ⟨fun r _ => rfl, fun c hc => ?_⟩
  cases c with
  | delay | sound | calls => simp at hc
  | memory | display => exact fun _ => rfl
  | stack => exact ⟨rfl, rfl⟩
  | index | keypad | runStatus | draws => rfl

/-- Settles O19: the next state is `tickTimers` of the entry state, whose timers are `countDown` of the old ones. -/
theorem tickTimersCountsDownAndBeeps : Obligations.TickTimersCountsDownAndBeeps := by
  intro s rest hcalls hrun
  exact ⟨_, step_tickTimers hcalls hrun, toNat_countDown s.dt, toNat_countDown s.st, rfl, rfl, rfl,
    tickTimers_frame s rest⟩

end Sys2Proof.Machine
end

section
/-! The decoder and the encoder are inverse, and the match / mask rows are the decoder's domain (30_encoding.md). -/

namespace Sys2Proof

/-! ### A word is its fields (R70, R73) -/

theorem formNnn_fields (w : Word) : formNnn (opD1 w) (opNnn w) = w := by
  apply BitVec.eq_of_getLsbD_eq; intro i hi
  simp only [formNnn, opD1, opNnn, BitVec.getLsbD_append, BitVec.getLsbD_extractLsb']
  by_cases h : i < 12
  · simp [h]
  · simp [h, show i - 12 < 4 by omega, show 12 + (i - 12) = i by omega]

theorem nibbleOf_opX_append_opNn (w : Word) : nibbleOf (opX w) ++ opNn w = opNnn w := by
  apply BitVec.eq_of_getLsbD_eq; intro i hi
  simp only [nibbleOf, opX, opNn, opNnn, BitVec.ofFin_toFin, BitVec.getLsbD_append, BitVec.getLsbD_extractLsb']
  by_cases h : i < 8
  · simp [h, hi]
  · simp [h, hi, show i - 8 < 4 by omega, show 8 + (i - 8) = i by omega]

theorem nibbleOf_opY_append_opD4 (w : Word) : nibbleOf (opY w) ++ opD4 w = opNn w := by
  apply BitVec.eq_of_getLsbD_eq; intro i hi
  simp only [nibbleOf, opY, opD4, opNn, BitVec.ofFin_toFin, BitVec.getLsbD_append, BitVec.getLsbD_extractLsb']
  by_cases h : i < 4
  · simp [h, hi]
  · simp [h, hi, show i - 4 < 4 by omega, show 4 + (i - 4) = i by omega]

theorem formXnn_fields (w : Word) : formXnn (opD1 w) (opX w) (opNn w) = w := by
  rw [formXnn_eq, nibbleOf_opX_append_opNn, formNnn_fields]

theorem formXyn_fields (w : Word) : formXyn (opD1 w) (opX w) (opY w) (opD4 w) = w := by
  rw [formXyn_eq, nibbleOf_opY_append_opD4, formXnn_fields]

theorem nibbleOf_opN (w : Word) : nibbleOf (opN w) = opD4 w := rfl

/-! A word with the fixed fields of a form is that form of its other fields. -/

theorem formNnn_of_opD1 {w : Word} {d : Nibble} (hd : opD1 w = d) : formNnn d (opNnn w) = w :=
  hd ▸ formNnn_fields w

theorem formXnn_of_opD1 {w : Word} {d : Nibble} (hd : opD1 w = d) : formXnn d (opX w) (opNn w) = w :=
  hd ▸ formXnn_fields w

theorem formXnn_of_opD1_opNn {w : Word} {d : Nibble} {nn : Byte} (hd : opD1 w = d) (hn : opNn w = nn) :
    formXnn d (opX w) nn = w :=
  hn ▸ formXnn_of_opD1 hd

theorem formXyn_of_opD1_opD4 {w : Word} {d n : Nibble} (hd : opD1 w = d) (hn : opD4 w = n) :
    formXyn d (opX w) (opY w) n = w :=
  hd ▸ hn ▸ formXyn_fields w

/-! ### Decode after encode (R74, R75) -/

/-- By d1 the decoder picks the row or the sub-decoder, which then reads the form's fixed low field back. -/
theorem decodeWord_encode (i : Instr) : decodeWord (encode i) = .ok i := by
  cases i with
  | cls | ret | nop => rfl
  | jp nnn | call nnn | ldI nnn | jpV0 nnn => simp [encode, decodeWord]
  | seImm x nn | sneImm x nn | ldImm x nn | addImm x nn | rnd x nn => simp [encode, decodeWord]
  | drw x y n => simp [encode, decodeWord]
  | seReg x y | sneReg x y => simp [encode, decodeWord, decodeD4Zero]
  | ldReg x y | orReg x y | andReg x y | xorReg x y | addReg x y | sub x y | shr x y | subn x y | shl x y =>
    simp [encode, decodeWord, decodeD1Eight]
  | skp x | sknp x => simp [encode, decodeWord, decodeD1E]
  | ldVxDt x | ldVxK x | ldDtVx x | ldStVx x | addI x | ldF x | ldB x | storeRegs x | loadRegs x =>
    simp [encode, decodeWord, decodeD1F]

theorem decodeBytes_encodeBytes (i : Instr) (rest : List Byte) :
    decodeBytes (encodeBytes i ++ rest) = .ok (i, rest) := by
  simp only [encodeBytes, wordBytes, List.cons_append, List.nil_append, decodeBytes_cons, opcodeOf_wordBytes,
    decodeWord_encode]
  rfl

/-- Settles O1: on words by the row of the instruction, on bytes because the two bytes of a word give it back. -/
theorem decodeOfEncodeIsIdentity : Obligations.DecodeOfEncodeIsIdentity :=
  fun i rest => ⟨decodeWord_encode i, decodeBytes_encodeBytes i rest⟩

/-! ### Encode after decode -/

theorem encode_of_decodeD1Zero {w : Word} {i : Instr} (hd : opD1 w = 0x0) (h : decodeD1Zero w = .ok i) :
    encode i = w := by
  have hw : w = formNnn 0x0 (opNnn w) := (formNnn_of_opD1 hd).symm
  unfold decodeD1Zero at h
  split at h <;> cases h
  all_goals
    rename_i hn
    rw [hw, hn]
    rfl

theorem encode_of_decodeD4Zero {w : Word} {i j : Instr} (hj : opD4 w = 0x0 → encode j = w)
    (h : decodeD4Zero j w = .ok i) : encode i = w := by
  unfold decodeD4Zero at h
  split at h
  next hn => cases h; exact hj hn
  next => cases h

theorem encode_of_decodeD1Eight {w : Word} {i : Instr} (hd : opD1 w = 0x8) (h : decodeD1Eight w = .ok i) :
    encode i = w := by
  unfold decodeD1Eight at h
  split at h <;> cases h <;> exact formXyn_of_opD1_opD4 hd ‹_›

theorem encode_of_decodeD1E {w : Word} {i : Instr} (hd : opD1 w = 0xE) (h : decodeD1E w = .ok i) : encode i = w := by
  unfold decodeD1E at h
  split at h <;> cases h <;> exact formXnn_of_opD1_opNn hd ‹_›

theorem encode_of_decodeD1F {w : Word} {i : Instr} (hd : opD1 w = 0xF) (h : decodeD1F w = .ok i) : encode i = w := by
  unfold decodeD1F at h
  split at h <;> cases h <;> exact formXnn_of_opD1_opNn hd ‹_›

theorem encode_of_decodeWord {w : Word} {i : Instr} (h : decodeWord w = .ok i) : encode i = w := by
  unfold decodeWord at h
  split at h
  case h_1 hd => exact encode_of_decodeD1Zero hd h
  case h_6 hd => exact encode_of_decodeD4Zero (formXyn_of_opD1_opD4 hd) h
  case h_9 hd => exact encode_of_decodeD1Eight hd h
  case h_10 hd => exact encode_of_decodeD4Zero (formXyn_of_opD1_opD4 hd) h
  case h_14 hd => cases h; exact formXyn_of_opD1_opD4 hd (nibbleOf_opN w).symm
  case h_15 hd => exact encode_of_decodeD1E hd h
  case h_16 hd => exact encode_of_decodeD1F hd h
  case h_17 => cases h
  case h_2 hd | h_3 hd | h_11 hd | h_12 hd => cases h; exact formNnn_of_opD1 hd
  case h_4 hd | h_5 hd | h_7 hd | h_8 hd | h_13 hd => cases h; exact formXnn_of_opD1 hd

/-- Settles O2: a row fixes exactly the fields its form fixes, and the form takes the others from the word. -/
theorem decodedWordReencodes : Obligations.DecodedWordReencodes := fun _ _ h => encode_of_decodeWord h

end Sys2Proof
end

section
/-! The match / mask rows of R75 against the decoder. -/

namespace Sys2Proof

/-- Every instruction's word matches the pair the spec prints for it, the per-instruction lemmas together. -/
theorem opcodeRow_covers_encode (i : Instr) : (opcodeRow i).covers (encode i) = true := by
  cases i with
  | cls => exact Laws.RowMatch.cls
  | ret => exact Laws.RowMatch.ret
  | jp nnn => exact Laws.RowMatch.jp nnn
  | call nnn => exact Laws.RowMatch.call nnn
  | seImm x nn => exact Laws.RowMatch.seImm x nn
  | sneImm x nn => exact Laws.RowMatch.sneImm x nn
  | seReg x y => exact Laws.RowMatch.seReg x y
  | ldImm x nn => exact Laws.RowMatch.ldImm x nn
  | addImm x nn => exact Laws.RowMatch.addImm x nn
  | ldReg x y => exact Laws.RowMatch.ldReg x y
  | orReg x y => exact Laws.RowMatch.orReg x y
  | andReg x y => exact Laws.RowMatch.andReg x y
  | xorReg x y => exact Laws.RowMatch.xorReg x y
  | addReg x y => exact Laws.RowMatch.addReg x y
  | sub x y => exact Laws.RowMatch.sub x y
  | shr x y => exact Laws.RowMatch.shr x y
  | subn x y => exact Laws.RowMatch.subn x y
  | shl x y => exact Laws.RowMatch.shl x y
  | sneReg x y => exact Laws.RowMatch.sneReg x y
  | ldI nnn => exact Laws.RowMatch.ldI nnn
  | jpV0 nnn => exact Laws.RowMatch.jpV0 nnn
  | rnd x nn => exact Laws.RowMatch.rnd x nn
  | drw x y n => exact Laws.RowMatch.drw x y n
  | skp x => exact Laws.RowMatch.skp x
  | sknp x => exact Laws.RowMatch.sknp x
  | ldVxDt x => exact Laws.RowMatch.ldVxDt x
  | ldVxK x => exact Laws.RowMatch.ldVxK x
  | ldDtVx x => exact Laws.RowMatch.ldDtVx x
  | ldStVx x => exact Laws.RowMatch.ldStVx x
  | addI x => exact Laws.RowMatch.addI x
  | ldF x => exact Laws.RowMatch.ldF x
  | ldB x => exact Laws.RowMatch.ldB x
  | storeRegs x => exact Laws.RowMatch.storeRegs x
  | loadRegs x => exact Laws.RowMatch.loadRegs x
  | nop => exact Laws.RowMatch.nop

theorem opcodeRow_mem (i : Instr) : opcodeRow i ∈ opcodeRows := by
  cases i <;> simp only [opcodeRow] <;> decide

theorem OpcodeRow.covers_iff (r : OpcodeRow) (w : Word) : r.covers w = true ↔ w &&& r.mask = r.pattern := by
  simp [OpcodeRow.covers]

/-! ### No word matches two rows (R74) -/

/-- Two different rows of the table fix some bit in common, to different values. -/
theorem opcodeRows_patterns_differ :
    ∀ r ∈ opcodeRows, ∀ q ∈ opcodeRows, r.pattern &&& q.mask = q.pattern &&& r.mask → r = q := by decide

theorem opcodeRows_disjoint {r q : OpcodeRow} (hr : r ∈ opcodeRows) (hq : q ∈ opcodeRows) {w : Word}
    (hrw : r.covers w = true) (hqw : q.covers w = true) : r = q := by
  rw [OpcodeRow.covers_iff] at hrw hqw
  refine opcodeRows_patterns_differ r hr q hq ?_
  rw [← hrw, ← hqw, BitVec.and_assoc, BitVec.and_assoc, BitVec.and_comm r.mask]

/-! ### A word that matches a row is some instruction's word -/

/-- What a matched row says of the fields that decoding looks at. -/
theorem OpcodeRow.covers_fields {r : OpcodeRow} {w : Word} (h : r.covers w = true) :
    opD1 w &&& opD1 r.mask = opD1 r.pattern ∧ opD4 w &&& opD4 r.mask = opD4 r.pattern ∧
      opNn w &&& opNn r.mask = opNn r.pattern ∧ opNnn w &&& opNnn r.mask = opNnn r.pattern := by
  rw [OpcodeRow.covers_iff] at h
  simp only [← h, opD1, opD4, opNn, opNnn, BitVec.extractLsb'_and, and_self]

/-! A mask of ones fixes the whole field. -/

theorem nibble_and_ones (a : Nibble) : a &&& 15#4 = a := BitVec.and_allOnes
theorem byte_and_ones (a : Byte) : a &&& 255#8 = a := BitVec.and_allOnes
theorem addr_and_ones (a : Addr12) : a &&& 4095#12 = a := BitVec.and_allOnes

/-- Row by row: the fixed fields of the row are the ones that lead the decoder to its instruction. -/
theorem exists_decodeWord_of_covers : ∀ r ∈ opcodeRows, ∀ w, r.covers w = true → ∃ i, decodeWord w = .ok i := by
  intro r hr w h
  obtain ⟨hd, h4, hnn, hnnn⟩ := OpcodeRow.covers_fields h
  rcases List.mem_append.1 hr with hr | hr
  · rcases List.mem_append.1 hr with hr | hr
    · simp only [opcodeRowsLow, List.mem_cons, List.not_mem_nil, or_false] at hr
      rcases hr with rfl | rfl | rfl | rfl | rfl | rfl | rfl | rfl | rfl
      all_goals
        simp [opD1, opD4, opNnn, nibble_and_ones, addr_and_ones] at hd h4 hnnn
        simp [decodeWord, decodeD1Zero, decodeD4Zero, opD1, opD4, opNnn, hd, h4, hnnn]
    · simp only [opcodeRowsReg, List.mem_cons, List.not_mem_nil, or_false] at hr
      rcases hr with rfl | rfl | rfl | rfl | rfl | rfl | rfl | rfl | rfl | rfl
      all_goals
        simp [opD1, opD4, nibble_and_ones] at hd h4
        simp [decodeWord, decodeD1Eight, decodeD4Zero, opD1, opD4, hd, h4]
  · simp only [opcodeRowsHigh, List.mem_cons, List.not_mem_nil, or_false] at hr
    rcases hr with rfl | rfl | rfl | rfl | rfl | rfl | rfl | rfl | rfl | rfl | rfl | rfl | rfl | rfl | rfl | rfl
    all_goals
      simp [opD1, opNn, opNnn, nibble_and_ones, byte_and_ones, addr_and_ones] at hd hnn hnnn
      simp [decodeWord, decodeD1Zero, decodeD1E, decodeD1F, opD1, opNn, opNnn, hd, hnn, hnnn]

/-! ### What is undefined -/

theorem decodeWord_error {w : Word} {e : DecodeError} (h : decodeWord w = .error e) : e = .undefinedOpcode w := by
  simp only [decodeWord, decodeD1Zero, decodeD4Zero, decodeD1Eight, decodeD1E, decodeD1F] at h
  split at h
  all_goals (try split at h)
  all_goals cases h <;> rfl

theorem covers_false_iff_undefined (w : Word) :
    (∀ r ∈ opcodeRows, r.covers w = false) ↔ decodeWord w = .error (.undefinedOpcode w) := by
  refine ⟨fun hnone => ?_, fun herr r hr => ?_⟩
  · cases hd : decodeWord w with
    | ok i =>
      have hrow := opcodeRow_covers_encode i
      rw [encode_of_decodeWord hd, hnone _ (opcodeRow_mem i)] at hrow
      cases hrow
    | error e => rw [decodeWord_error hd]
  · by_contra hc
    obtain ⟨i, hi⟩ := exists_decodeWord_of_covers r hr w (by simpa using hc)
    rw [hi] at herr
    cases herr

/-- Settles O3: membership and matching through the encoding, disjointness from the masks' common bits, and undefined
words by both. -/
theorem decoderFollowsOpcodeTable : Obligations.DecoderFollowsOpcodeTable := by
  intro w
  refine ⟨fun i hi => ⟨opcodeRow_mem i, ?_⟩, fun r hr q hq => opcodeRows_disjoint hr hq, covers_false_iff_undefined w⟩
  rw [← encode_of_decodeWord hi]
  exact opcodeRow_covers_encode i

/-- Settles O4: the seven words are closed terms. -/
theorem sampleWordsDecode : Obligations.SampleWordsDecode := by
  refine ⟨?_, ?_, ?_, ?_, ?_, ?_, ?_⟩ <;> rfl

end Sys2Proof
end

section
/-! What an instruction can do: complete and write only what the spec's tables list, or raise one of its causes. -/

namespace Sys2Proof.Machine

/-! ### Frames by field -/

/-- The parts outside `parts` are the same data in s and t: `Component.kept` read field by field. -/
structure PartsEqual (parts : List Component) (s t : State) : Prop where
  mem : .memory ∉ parts → t.mem = s.mem
  i : .index ∉ parts → t.i = s.i
  dt : .delay ∉ parts → t.dt = s.dt
  st : .sound ∉ parts → t.st = s.st
  stack : .stack ∉ parts → t.stack = s.stack
  sp : .stack ∉ parts → t.sp = s.sp
  disp : .display ∉ parts → t.disp = s.disp
  keys : .keypad ∉ parts → t.keys = s.keys
  status : .runStatus ∉ parts → t.status = s.status
  draws : .draws ∉ parts → t.draws = s.draws
  calls : .calls ∉ parts → t.calls = s.calls

/-- From s to t an instruction with these tables completed: the frame, with memory and display held to the same data. -/
structure Writes (regs : List Reg) (parts : List Component) (s t : State) : Prop where
  regs : ∀ r, r ∉ regs → t.readV r = s.readV r
  parts : PartsEqual parts s t

theorem Writes.frame {regs : List Reg} {parts : List Component} {s t : State} (h : Writes regs parts s t) :
    Frame regs parts s t := by
  refine ⟨h.regs, fun c hc => ?_⟩
  cases c with
  | memory => exact fun a => by rw [h.parts.mem hc]
  | display => exact fun p => by rw [h.parts.disp hc]
  | stack => exact ⟨h.parts.stack hc, h.parts.sp hc⟩
  | index => exact h.parts.i hc
  | delay => exact h.parts.dt hc
  | sound => exact h.parts.st hc
  | keypad => exact h.parts.keys hc
  | runStatus => exact h.parts.status hc
  | draws => exact h.parts.draws hc
  | calls => exact h.parts.calls hc

theorem Frame.mono {regs regs' : List Reg} {parts parts' : List Component} {s t : State} (h : Frame regs parts s t)
    (hr : regs ⊆ regs') (hp : parts ⊆ parts') : Frame regs' parts' s t :=
  ⟨fun r hr' => h.1 r fun hm => hr' (hr hm), fun c hc => h.2 c fun hm => hc (hp hm)⟩

theorem writes_takeFatal (s : State) (op : Option Word) (f : Fatal) : Writes [] [.runStatus] s (s.takeFatal op f) :=
  ⟨fun _ _ => rfl, by constructor <;> simp⟩

@[simp] theorem mem_upTo (x r : Reg) : r ∈ upTo x ↔ r ≤ x := by simp [upTo, List.mem_finRange]

theorem State.readV_loadBlock (s : State) (m : Memory) (base : Nat) (x r : Reg) :
    ({ s with v := loadBlock m base x s.v } : State).readV r =
      if r ≤ x then Memory.read m (base + r.val) else s.readV r := by
  simp [State.readV, loadBlock]

/-! ### The instructions that can raise a fatal condition, on either side of their check -/

theorem exec_ret_of_pos {s : State} (h : 0 < s.sp.val) :
    exec .ret s = .next { s with pc := s.stack[s.sp.val - 1]'(by omega), sp := ⟨s.sp.val - 1, by omega⟩ } := by
  show settle _ s (returnBody s.advancePc) = _
  rw [returnBody, State.pop_of_pos s.advancePc h]
  rfl

theorem exec_ret_empty {s : State} (h : s.sp.val = 0) :
    exec .ret s = .next (s.takeFatal (some (encode .ret)) ⟨.stackUnderflow, 0⟩) := by
  show settle _ s (returnBody s.advancePc) = _
  rw [returnBody, State.pop_empty s.advancePc (by simp [h]), State.advancePc_sp, h]
  rfl

theorem exec_call_of_lt {s : State} (nnn : Addr12) (h : s.sp.val < 16) :
    exec (.call nnn) s = .next { s with
      pc := zextAddr nnn, stack := s.stack.set s.sp.val (s.pc + 2) h, sp := ⟨s.sp.val + 1, by omega⟩ } := by
  show settle _ s (callBody nnn s.advancePc) = _
  rw [callBody, State.push_of_lt s.advancePc _ h]
  rfl

theorem exec_call_full {s : State} (nnn : Addr12) (h : s.sp.val = 16) :
    exec (.call nnn) s = .next (s.takeFatal (some (encode (.call nnn))) ⟨.stackOverflow, 16⟩) := by
  show settle _ s (callBody nnn s.advancePc) = _
  rw [callBody, State.push_full s.advancePc _ (by simp [h]), State.advancePc_sp, h]
  rfl

theorem keySkipBody_of_le {s : State} (wanted : Bool) {x : Reg} (h : (s.readV x).toNat ≤ 15) :
    keySkipBody wanted x s = .ok (s.skipIf (s.keys[(s.readV x).toNat]'(by omega) == wanted)) := by
  rw [keySkipBody, dif_pos h]

theorem keySkipBody_of_gt {s : State} (wanted : Bool) {x : Reg} (h : 15 < (s.readV x).toNat) :
    keySkipBody wanted x s = .error ⟨.keyIndexOutOfRange, (s.readV x).toNat⟩ := by
  rw [keySkipBody, dif_neg (by omega)]

theorem exec_skp_of_le {s : State} {x : Reg} (h : (s.readV x).toNat ≤ 15) :
    exec (.skp x) s = .next (s.advancePc.skipIf (s.keys[(s.readV x).toNat]'(by omega) == true)) :=
  congrArg (settle _ s) (keySkipBody_of_le true (s := s.advancePc) h)

theorem exec_sknp_of_le {s : State} {x : Reg} (h : (s.readV x).toNat ≤ 15) :
    exec (.sknp x) s = .next (s.advancePc.skipIf (s.keys[(s.readV x).toNat]'(by omega) == false)) :=
  congrArg (settle _ s) (keySkipBody_of_le false (s := s.advancePc) h)

theorem exec_skp_of_gt {s : State} {x : Reg} (h : 15 < (s.readV x).toNat) :
    exec (.skp x) s = .next (s.takeFatal (some (encode (.skp x))) ⟨.keyIndexOutOfRange, (s.readV x).toNat⟩) :=
  congrArg (settle _ s) (keySkipBody_of_gt true (s := s.advancePc) h)

theorem exec_sknp_of_gt {s : State} {x : Reg} (h : 15 < (s.readV x).toNat) :
    exec (.sknp x) s = .next (s.takeFatal (some (encode (.sknp x))) ⟨.keyIndexOutOfRange, (s.readV x).toNat⟩) :=
  congrArg (settle _ s) (keySkipBody_of_gt false (s := s.advancePc) h)

/-- The block of an I-relative access lies in memory; a block of no bytes is not checked (R146, R151). -/
def BlockInRange (s : State) (count : Nat) : Prop := count = 0 ∨ s.base + count ≤ 0x1000

theorem afterBlockCheck_of_inRange {s : State} {count : Nat} (h : BlockInRange s count) (k : AccessKind) (t : State) :
    afterBlockCheck hwParams k s.base count t = .ok t := by
  rw [afterBlockCheck_hw, if_neg]
  rcases h with h | h <;> omega

theorem afterBlockCheck_of_not_inRange {s : State} {count : Nat} (h : ¬ BlockInRange s count) (k : AccessKind)
    (t : State) : afterBlockCheck hwParams k s.base count t = .error ⟨.dataOutOfRange, max s.base 0x1000⟩ := by
  rw [BlockInRange, not_or] at h
  exact afterBlockCheck_hw_error k s.base count t (by omega) (by omega)

theorem exec_drw_of_inRange {s : State} (x y : Reg) {n : RowCount} (h : BlockInRange s n.val) :
    exec (.drw x y n) s = .next (drawSprite x y n s.advancePc) :=
  congrArg (settle _ s) (afterBlockCheck_of_inRange (s := s.advancePc) h _ _)

theorem exec_drw_of_not_inRange {s : State} (x y : Reg) {n : RowCount} (h : ¬ BlockInRange s n.val) :
    exec (.drw x y n) s =
      .next (s.takeFatal (some (encode (.drw x y n))) ⟨.dataOutOfRange, max s.base 0x1000⟩) :=
  congrArg (settle _ s) (afterBlockCheck_of_not_inRange (s := s.advancePc) h _ _)

theorem exec_ldB_of_inRange {s : State} (x : Reg) (h : BlockInRange s 3) :
    exec (.ldB x) s =
      .next { s.advancePc with mem := Memory.writeBytes s.mem s.base (bcdDigits (s.readV x)) } :=
  congrArg (settle _ s) (afterBlockCheck_of_inRange (s := s.advancePc) h _ _)

theorem exec_ldB_of_not_inRange {s : State} (x : Reg) (h : ¬ BlockInRange s 3) :
    exec (.ldB x) s = .next (s.takeFatal (some (encode (.ldB x))) ⟨.dataOutOfRange, max s.base 0x1000⟩) :=
  congrArg (settle _ s) (afterBlockCheck_of_not_inRange (s := s.advancePc) h _ _)

theorem exec_storeRegs_of_inRange {s : State} {x : Reg} (h : BlockInRange s (x.val + 1)) :
    exec (.storeRegs x) s = .next { s.advancePc with mem := Memory.writeBytes s.mem s.base (s.regBlock x) } :=
  congrArg (settle _ s) (afterBlockCheck_of_inRange (s := s.advancePc) h _ _)

theorem exec_storeRegs_of_not_inRange {s : State} {x : Reg} (h : ¬ BlockInRange s (x.val + 1)) :
    exec (.storeRegs x) s =
      .next (s.takeFatal (some (encode (.storeRegs x))) ⟨.dataOutOfRange, max s.base 0x1000⟩) :=
  congrArg (settle _ s) (afterBlockCheck_of_not_inRange (s := s.advancePc) h _ _)

theorem exec_loadRegs_of_inRange {s : State} {x : Reg} (h : BlockInRange s (x.val + 1)) :
    exec (.loadRegs x) s = .next { s.advancePc with v := loadBlock s.mem s.base x s.v } :=
  congrArg (settle _ s) (afterBlockCheck_of_inRange (s := s.advancePc) h _ _)

theorem exec_loadRegs_of_not_inRange {s : State} {x : Reg} (h : ¬ BlockInRange s (x.val + 1)) :
    exec (.loadRegs x) s =
      .next (s.takeFatal (some (encode (.loadRegs x))) ⟨.dataOutOfRange, max s.base 0x1000⟩) :=
  congrArg (settle _ s) (afterBlockCheck_of_not_inRange (s := s.advancePc) h _ _)

/-! ### Fx0A (R163) -/

theorem exec_ldVxK_of_some {s : State} (x : Reg) {k : Reg} (h : lowestKey s.keys = some k) :
    exec (.ldVxK x) s = .next (s.advancePc.writeV x (BitVec.ofNat 8 k.val)) := by
  show Host.Outcome.next (waitKeyBody x s.advancePc) = _
  simp only [waitKeyBody, State.advancePc_keys, h]

theorem exec_ldVxK_of_none {s : State} (x : Reg) (h : lowestKey s.keys = none) : exec (.ldVxK x) s = .next s := by
  have hpc : s.pc + 2 - 2 = s.pc := BitVec.add_sub_cancel _ _
  show Host.Outcome.next (waitKeyBody x s.advancePc) = _
  simp only [waitKeyBody, h, State.advancePc, hpc]

/-! ### Every instruction -/

theorem writes_skipIf (s : State) (c : Bool) : Writes [] [] s (s.advancePc.skipIf c) :=
  ⟨fun _ _ => by simp, by constructor <;> simp⟩

theorem writes_writeV (s : State) (x : Reg) (b : Byte) : Writes [x] [] s (s.advancePc.writeV x b) :=
  ⟨fun _ hr => State.readV_writeV_ne _ _ _ _ (by simpa using hr), by constructor <;> simp⟩

theorem writes_writeResultAndFlag (s : State) (x : Reg) (a b : Byte) :
    Writes [x, VF] [] s (s.advancePc.writeResultAndFlag x a b) := by
  refine ⟨fun r hr => ?_, by constructor <;> simp⟩
  obtain ⟨hx, hf⟩ : r ≠ x ∧ r ≠ VF := by simpa using hr
  rw [State.readV_writeResultAndFlag, if_neg hf, if_neg hx, State.readV_advancePc]

theorem writes_drawSprite (s : State) (x y : Reg) (n : RowCount) :
    Writes [VF] [.display] s (drawSprite x y n s.advancePc) :=
  ⟨fun _ hr => State.readV_writeV_ne _ _ _ _ (by simpa using hr), by constructor <;> simp [drawSprite]⟩

theorem writes_memory (s : State) (m : Memory) : Writes [] [.memory] s { s.advancePc with mem := m } :=
  ⟨fun _ _ => rfl, by constructor <;> simp⟩

theorem writes_loadBlock (s : State) (m : Memory) (base : Nat) (x : Reg) :
    Writes (upTo x) [] s { s.advancePc with v := loadBlock m base x s.v } := by
  refine ⟨fun r hr => ?_, by constructor <;> simp⟩
  exact (State.readV_loadBlock s.advancePc m base x r).trans (if_neg (by simpa using hr))

theorem writes_refl (regs : List Reg) (parts : List Component) (s : State) : Writes regs parts s s :=
  ⟨fun _ _ => rfl, by constructor <;> simp⟩

/-- Where PC can be after an instruction that completes (R28, R109). -/
def PcAfter (i : Instr) (s : State) (pc : Word) : Prop :=
  match i with
  | .ret => ∃ h : 0 < s.sp.val, pc = s.stack[s.sp.val - 1]'(by omega)
  | .jp nnn | .call nnn => pc = zextAddr nnn
  | .jpV0 nnn => pc = zextAddr nnn + zextByte (s.readV 0)
  | .seImm _ _ | .sneImm _ _ | .seReg _ _ | .sneReg _ _ | .skp _ | .sknp _ => ∃ c : Bool, pc = (s.advancePc.skipIf c).pc
  | .ldVxK _ => pc = s.pc + 2 ∨ pc = s.pc
  | _ => pc = s.pc + 2

/-- An instruction's execution as a whole: it completes, moves PC and writes what its rows list, or it raises one of its
causes. -/
theorem exec_cases (i : Instr) (s : State) :
    (∃ t, exec i s = .next t ∧ Writes (regsWritten i) (partsWritten i) s t ∧ PcAfter i s t.pc) ∨
      ∃ f, f.cause ∈ causesRaised i ∧ exec i s = .next (s.takeFatal (some (encode i)) f) := by
  cases i with
  | cls | nop | jp nnn | jpV0 nnn | ldI nnn | addI x | ldF x | ldDtVx x | ldStVx x =>
    exact .inl ⟨_, rfl, ⟨fun _ _ => rfl, by constructor <;> simp [partsWritten]⟩, rfl⟩
  | seImm x nn | sneImm x nn | seReg x y | sneReg x y => exact .inl ⟨_, rfl, writes_skipIf s _, _, rfl⟩
  | ldImm x nn | addImm x nn | ldReg x y | orReg x y | andReg x y | xorReg x y | ldVxDt x =>
    exact .inl ⟨_, rfl, writes_writeV s x _, rfl⟩
  | addReg x y | sub x y | subn x y | shr x y | shl x y =>
    exact .inl ⟨_, rfl, writes_writeResultAndFlag s x _ _, rfl⟩
  | rnd x nn =>
    exact .inl ⟨_, rfl, ⟨(writes_writeV s x _).regs, by constructor <;> simp [partsWritten, randomBody]⟩, rfl⟩
  | ldVxK x =>
    cases hk : lowestKey s.keys with
    | some k => exact .inl ⟨_, exec_ldVxK_of_some x hk, writes_writeV s x _, .inl rfl⟩
    | none => exact .inl ⟨_, exec_ldVxK_of_none x hk, writes_refl _ _ s, .inr rfl⟩
  | ret =>
    rcases Nat.eq_zero_or_pos s.sp.val with h | h
    · exact .inr ⟨_, by simp [causesRaised], exec_ret_empty h⟩
    · exact .inl ⟨_, exec_ret_of_pos h, ⟨fun _ _ => rfl, by constructor <;> simp [partsWritten]⟩, h, rfl⟩
  | call nnn =>
    by_cases h : s.sp.val < 16
    · exact .inl ⟨_, exec_call_of_lt nnn h, ⟨fun _ _ => rfl, by constructor <;> simp [partsWritten]⟩, rfl⟩
    · exact .inr ⟨_, by simp [causesRaised], exec_call_full nnn (by omega)⟩
  | skp x =>
    rcases Nat.lt_or_ge 15 (s.readV x).toNat with h | h
    · exact .inr ⟨_, by simp [causesRaised], exec_skp_of_gt h⟩
    · exact .inl ⟨_, exec_skp_of_le h, writes_skipIf s _, _, rfl⟩
  | sknp x =>
    rcases Nat.lt_or_ge 15 (s.readV x).toNat with h | h
    · exact .inr ⟨_, by simp [causesRaised], exec_sknp_of_gt h⟩
    · exact .inl ⟨_, exec_sknp_of_le h, writes_skipIf s _, _, rfl⟩
  | drw x y n =>
    by_cases h : BlockInRange s n.val
    · exact .inl ⟨_, exec_drw_of_inRange x y h, writes_drawSprite s x y n, rfl⟩
    · exact .inr ⟨_, by simp [causesRaised], exec_drw_of_not_inRange x y h⟩
  | ldB x =>
    by_cases h : BlockInRange s 3
    · exact .inl ⟨_, exec_ldB_of_inRange x h, writes_memory s _, rfl⟩
    · exact .inr ⟨_, by simp [causesRaised], exec_ldB_of_not_inRange x h⟩
  | storeRegs x =>
    by_cases h : BlockInRange s (x.val + 1)
    · exact .inl ⟨_, exec_storeRegs_of_inRange h, writes_memory s _, rfl⟩
    · exact .inr ⟨_, by simp [causesRaised], exec_storeRegs_of_not_inRange h⟩
  | loadRegs x =>
    by_cases h : BlockInRange s (x.val + 1)
    · exact .inl ⟨_, exec_loadRegs_of_inRange h, writes_loadBlock s _ _ x, rfl⟩
    · exact .inr ⟨_, by simp [causesRaised], exec_loadRegs_of_not_inRange h⟩

theorem partsWritten_not_runStatus (i : Instr) : .runStatus ∉ partsWritten i := by
  cases i <;> simp [partsWritten]

/-- The same, of the state an execution answers. -/
theorem exec_next_cases {i : Instr} {s t : State} (h : exec i s = .next t) :
    (Writes (regsWritten i) (partsWritten i) s t ∧ PcAfter i s t.pc) ∨
      ∃ f, f.cause ∈ causesRaised i ∧ t = s.takeFatal (some (encode i)) f := by
  rcases exec_cases i s with ⟨u, hu, hw, hp⟩ | ⟨f, hf, hu⟩
  · cases hu.symm.trans h
    exact .inl ⟨hw, hp⟩
  · cases hu.symm.trans h
    exact .inr ⟨f, hf, rfl⟩

/-- An instruction that leaves the status alone has completed, so it wrote what its rows list. -/
theorem exec_writes {i : Instr} {s t : State} (h : exec i s = .next t) (hs : t.status = s.status) :
    Writes (regsWritten i) (partsWritten i) s t := by
  rcases exec_next_cases h with ⟨hw, -⟩ | ⟨f, -, rfl⟩
  · exact hw
  · have heq : s.takeFatal (some (encode i)) f = s := by
      rw [State.takeFatal_status] at hs
      rw [State.takeFatal, hs]
    rw [heq]
    exact writes_refl _ _ s

theorem exec_frame {i : Instr} {s t : State} (h : exec i s = .next t) (hs : t.status = s.status) :
    Frame (regsWritten i) (partsWritten i) s t :=
  (exec_writes h hs).frame

/-- Settles O9: a completed instruction of a RUNNING core leaves it RUNNING, so a HALTED one is the state before with
the record taken. -/
theorem instructionFaultsArePrecise : Obligations.InstructionFaultsArePrecise := by
  intro i s t r hrun h hr
  rcases exec_next_cases h with ⟨hw, -⟩ | ⟨f, hf, rfl⟩
  · rw [hw.parts.status (partsWritten_not_runStatus i), hrun] at hr
    cases hr
  · cases hr
    exact ⟨rfl, rfl, rfl, hf⟩

/-- Settles O10: a completed instruction keeps its frame, and a fatal one changes the status alone. -/
theorem instructionsWriteOnlyWhatTheTablesSay : Obligations.InstructionsWriteOnlyWhatTheTablesSay := by
  intro i s t h
  rcases exec_next_cases h with ⟨hw, -⟩ | ⟨f, hf, rfl⟩
  · exact hw.frame.mono (List.Subset.refl _) (List.subset_append_left _ _)
  · rw [if_neg (List.ne_nil_of_mem hf)]
    exact (writes_takeFatal s _ f).frame.mono (List.nil_subset _) (List.subset_append_right _ _)

/-! ### The draw counter (R11, R131) -/

/-- The same state with another count of draws. -/
def State.redraw (d : Nat) (s : State) : State := { s with draws := d }

/-- The same outcome with another count of draws. -/
def redrawOutcome (d : Nat) : Outcome → Outcome
  | .next t => .next (t.redraw d)
  | .fault r => .fault r
  | .refused r => .refused r

theorem State.skipIf_redraw (s : State) (c : Bool) (d : Nat) : (s.redraw d).skipIf c = (s.skipIf c).redraw d := by
  cases c <;> rfl

theorem settle_block_redraw (op : Word) (k : AccessKind) (base n d : Nat) (s t : State) :
    settle op (s.redraw d) (afterBlockCheck hwParams k base n (t.redraw d)) =
      redrawOutcome d (settle op s (afterBlockCheck hwParams k base n t)) := by
  rw [afterBlockCheck_hw, afterBlockCheck_hw]
  split <;> rfl

theorem settle_keySkip_redraw (op : Word) (wanted : Bool) (x : Reg) (d : Nat) (s : State) :
    settle op (s.redraw d) (keySkipBody wanted x (s.redraw d).advancePc) =
      redrawOutcome d (settle op s (keySkipBody wanted x s.advancePc)) := by
  rcases Nat.lt_or_ge 15 (s.readV x).toNat with h | h
  · rw [keySkipBody_of_gt wanted (s := s.advancePc) h, keySkipBody_of_gt wanted (s := (s.redraw d).advancePc) h]
    rfl
  · rw [keySkipBody_of_le wanted (s := s.advancePc) h, keySkipBody_of_le wanted (s := (s.redraw d).advancePc) h]
    exact congrArg _ (State.skipIf_redraw s.advancePc _ d)

/-- The draw counter enters no check and no result but that of Cxnn. -/
theorem exec_redraw (i : Instr) (s : State) (d : Nat) (hi : ∀ x nn, i ≠ .rnd x nn) :
    exec i (s.redraw d) = redrawOutcome d (exec i s) := by
  cases i with
  | rnd x nn => exact absurd rfl (hi x nn)
  | cls | nop | jp nnn | jpV0 nnn | ldI nnn | addI x | ldF x | ldDtVx x | ldStVx x => rfl
  | ldImm x nn | addImm x nn | ldReg x y | orReg x y | andReg x y | xorReg x y | ldVxDt x => rfl
  | addReg x y | sub x y | subn x y | shr x y | shl x y => rfl
  | seImm x nn | sneImm x nn | seReg x y | sneReg x y => exact congrArg _ (State.skipIf_redraw s.advancePc _ d)
  | skp x | sknp x => exact settle_keySkip_redraw _ _ x d s
  | drw x y n => exact settle_block_redraw _ .dataRead s.base n.val d s (drawSprite x y n s.advancePc)
  | ldB x =>
    exact settle_block_redraw _ .dataWrite s.base 3 d s
      { s.advancePc with mem := Memory.writeBytes s.mem s.base (bcdDigits (s.readV x)) }
  | storeRegs x =>
    exact settle_block_redraw _ .dataWrite s.base (x.val + 1) d s
      { s.advancePc with mem := Memory.writeBytes s.mem s.base (s.regBlock x) }
  | loadRegs x =>
    exact settle_block_redraw _ .dataRead s.base (x.val + 1) d s
      { s.advancePc with v := loadBlock s.mem s.base x s.v }
  | ldVxK x =>
    cases h : lowestKey s.keys with
    | some k => rw [exec_ldVxK_of_some x h, exec_ldVxK_of_some (s := s.redraw d) x h]; rfl
    | none => rw [exec_ldVxK_of_none x h, exec_ldVxK_of_none (s := s.redraw d) x h]; rfl
  | ret =>
    rcases Nat.eq_zero_or_pos s.sp.val with h | h
    · rw [exec_ret_empty h, exec_ret_empty (s := s.redraw d) h]; rfl
    · rw [exec_ret_of_pos h, exec_ret_of_pos (s := s.redraw d) h]; rfl
  | call nnn =>
    rcases Nat.lt_or_ge s.sp.val 16 with h | h
    · rw [exec_call_of_lt nnn h, exec_call_of_lt (s := s.redraw d) nnn h]; rfl
    · have hfull : s.sp.val = 16 := by omega
      rw [exec_call_full nnn hfull, exec_call_full (s := s.redraw d) nnn hfull]; rfl

/-- Settles O11: the outcome from another draw counter is the same outcome with that counter. -/
theorem onlyRandomReadsTheDraw : Obligations.OnlyRandomReadsTheDraw := by
  intro i s t d hi h
  have hd := exec_redraw i s d hi
  rw [h] at hd
  exact hd

end Sys2Proof.Machine
end

section
/-! The step: what each call of the host does, and the invariants every step keeps. -/

namespace Sys2Proof.Machine

/-! ### The next call -/

theorem step_of_tickIsNext {s : State} {rest : List HostCall} (h : TickIsNext s rest) :
    step s = hostCall hwParams .tick { s with calls := rest } := by
  rcases h with ⟨hc, rfl⟩ | hc
  · have hs : { s with calls := [] } = s := by rw [← hc]
    rw [hs, step_of_calls_nil hc]
  · exact step_of_calls_cons hc

theorem step_tick {s : State} {rest : List HostCall} (h : TickIsNext s rest) (hrun : s.Running) :
    step s = tick hwParams { s with calls := rest } :=
  (step_of_tickIsNext h).trans (whenRunning_running hrun _)

/-- Every step is some host call on the state without it. -/
theorem step_eq_hostCall (s : State) : ∃ c rest, step s = hostCall hwParams c { s with calls := rest } := by
  cases hc : s.calls with
  | nil => exact ⟨.tick, [], step_of_tickIsNext (.inl ⟨hc, rfl⟩)⟩
  | cons c rest => exact ⟨c, rest, step_of_calls_cons hc⟩

theorem whenRunning_eq_next {s t : State} {o : Outcome} (h : whenRunning s o = .next t) : s.Running ∧ o = .next t := by
  cases hs : s.status with
  | running => exact ⟨hs, by rwa [whenRunning_running hs] at h⟩
  | halted r => rw [whenRunning_halted hs] at h; cases h

/-! ### The three ends of a tick (R90) -/

theorem tick_of_decode {s : State} {i : Instr} (hpc : s.pc.toNat ≤ 0xFFE) (hi : decodeWord s.wordAtPc = .ok i) :
    tick hwParams s = exec i s := by
  have hf : fetch hwParams s = .ok s.wordAtPc := (fetch_hw s).trans (if_pos hpc)
  simp only [tick, hf, hi, execUnder_hw]

theorem tick_of_undefined {s : State} (hpc : s.pc.toNat ≤ 0xFFE)
    (h : decodeWord s.wordAtPc = .error (.undefinedOpcode s.wordAtPc)) :
    tick hwParams s = .next (s.takeFatal (some s.wordAtPc) ⟨.undefinedOpcode, s.wordAtPc.toNat⟩) := by
  have hf : fetch hwParams s = .ok s.wordAtPc := (fetch_hw s).trans (if_pos hpc)
  simp only [tick, hf, h]

theorem tick_pastTop {s : State} (hpc : 0xFFE < s.pc.toNat) :
    tick hwParams s = .next (s.takeFatal none ⟨.fetchOutOfRange, max s.pc.toNat 0x1000⟩) := by
  have hf := (fetch_hw s).trans (if_neg (by omega))
  simp only [tick, hf]

/-- Settles O5: the fetch gives the word at PC, and Execute under this hardware's parameters is `exec`. -/
theorem stepRunsDecodedInstruction : Obligations.StepRunsDecodedInstruction :=
  fun _ _ _ hnext hrun hpc hi => (step_tick hnext hrun).trans (tick_of_decode hpc hi)

/-- Settles O6: a word outside every row is undefined for the decoder. -/
theorem undefinedWordHalts : Obligations.UndefinedWordHalts :=
  fun _ _ hnext hrun hpc hrows =>
    (step_tick hnext hrun).trans (tick_of_undefined hpc ((covers_false_iff_undefined _).1 hrows))

/-- Settles O7: the fetch checks PC and PC + 1 in this order. -/
theorem fetchPastTopHalts : Obligations.FetchPastTopHalts :=
  fun _ _ hnext hrun hpc => (step_tick hnext hrun).trans (tick_pastTop hpc)

/-- A tick completes an instruction, or takes a fatal condition on the state at entry. -/
theorem tick_completes (s : State) :
    ∃ t, tick hwParams s = .next t ∧ (t.status = s.status ∨ ∃ r, t = { s with status := .halted r }) := by
  rcases tick_cases s with ⟨-, w, -, ⟨i, -, h⟩ | ⟨e, -, h⟩⟩ | ⟨-, h⟩
  · rcases exec_cases i s with ⟨t, ht, hw, -⟩ | ⟨f, -, ht⟩
    · exact ⟨t, h.trans ht, .inl (hw.parts.status (partsWritten_not_runStatus i))⟩
    · exact ⟨_, h.trans ht, .inr ⟨_, rfl⟩⟩
  · exact ⟨_, h, .inr ⟨_, rfl⟩⟩
  · exact ⟨_, h, .inr ⟨_, rfl⟩⟩

/-- Settles O8: no tick blocks, and one that does not complete halts the state at entry. -/
theorem runningTickAlwaysCompletes : Obligations.RunningTickAlwaysCompletes := by
  intro s rest hnext hrun
  obtain ⟨t, ht, hs⟩ := tick_completes { s with calls := rest }
  exact ⟨t, (step_tick hnext hrun).trans ht, hs.imp_left fun h => h.trans hrun⟩

/-! ### The machine's invariant -/

theorem State.reset_inv : State.reset.Inv := by
  refine ⟨by decide, by decide, fun k => ?_⟩
  simp [State.reset]

theorem State.hostReset_hw (s : State) :
    s.hostReset hwParams = { State.reset with draws := s.draws, calls := s.calls } := by
  rw [State.hostReset, State.construct_hw]

/-- Settles O14: reset lists no memory, has PC = 0x200 and no record. -/
theorem resetMeetsInvariants : Obligations.ResetMeetsInvariants :=
  ⟨State.reset_inv, fun _ h => by cases h⟩

theorem State.length_regBlock (s : State) (x : Reg) : (s.regBlock x).length = x.val + 1 := by
  simp [State.regBlock]

/-- A block write that passed its check keeps the canonical form. -/
theorem writeBytes_base_wf {s : State} {bs : List Byte} (hm : Memory.wf s.mem) (h : BlockInRange s bs.length) :
    Memory.wf (Memory.writeBytes s.mem s.base bs) := by
  rcases h with h | h
  · rw [List.length_eq_zero_iff.1 h]; exact hm
  · exact Memory.writeBytes_wf hm _ _ h

/-- Only Fx33 and Fx55 write memory, and they write the block that passed its check. -/
theorem exec_keeps_memory_wf {i : Instr} {s t : State} (hm : Memory.wf s.mem) (h : exec i s = .next t)
    (hw : Writes (regsWritten i) (partsWritten i) s t) : Memory.wf t.mem := by
  cases i with
  | ldB x =>
    by_cases hb : BlockInRange s 3
    · rw [exec_ldB_of_inRange x hb] at h; cases h
      exact writeBytes_base_wf hm hb
    · rw [exec_ldB_of_not_inRange x hb] at h; cases h
      exact hm
  | storeRegs x =>
    by_cases hb : BlockInRange s (x.val + 1)
    · rw [exec_storeRegs_of_inRange hb] at h; cases h
      exact writeBytes_base_wf hm (by rwa [State.length_regBlock])
    · rw [exec_storeRegs_of_not_inRange hb] at h; cases h
      exact hm
  | _ => rw [hw.parts.mem (by simp [partsWritten])]; exact hm

/-- Only 2nnn writes a stack entry, the advanced PC. -/
theorem exec_keeps_stack_le {i : Instr} {s t : State} (hst : ∀ k : Fin 16, s.stack[k].toNat ≤ 0x1000)
    (hpc : s.pc.toNat ≤ 0xFFE) (h : exec i s = .next t) (hw : Writes (regsWritten i) (partsWritten i) s t) :
    ∀ k : Fin 16, t.stack[k].toNat ≤ 0x1000 := by
  cases i with
  | ret =>
    rcases Nat.eq_zero_or_pos s.sp.val with hp | hp
    · rw [exec_ret_empty hp] at h; cases h
      exact hst
    · rw [exec_ret_of_pos hp] at h; cases h
      exact hst
  | call nnn =>
    rcases Nat.lt_or_ge s.sp.val 16 with hp | hp
    · rw [exec_call_of_lt nnn hp] at h; cases h
      intro k
      have hadv : (s.pc + 2).toNat ≤ 0x1000 := by bv_omega
      simp only [Fin.getElem_fin, Vector.getElem_set]
      split
      · exact hadv
      · exact hst k
    · rw [exec_call_full nnn (by omega)] at h; cases h
      exact hst
  | _ => rw [hw.parts.stack (by simp [partsWritten])]; exact hst

/-- From a PC where a word can be fetched, the largest PC afterwards is that of Bnnn (R28). -/
theorem pc_le_of_pcAfter {i : Instr} {s : State} {pc : Word} (hst : ∀ k : Fin 16, s.stack[k].toNat ≤ 0x1000)
    (hpc : s.pc.toNat ≤ 0xFFE) (h : PcAfter i s pc) : pc.toNat ≤ 0x10FE := by
  have hadv : (s.pc + 2).toNat ≤ 0x10FE := by bv_omega
  cases i with
  | ret =>
    obtain ⟨hp, rfl⟩ := h
    exact (hst ⟨s.sp.val - 1, by omega⟩).trans (by decide)
  | jp nnn | call nnn =>
    cases h
    rw [toNat_zextAddr]
    omega
  | jpV0 nnn =>
    cases h
    rw [BitVec.toNat_add, toNat_zextAddr, toNat_zextByte]
    omega
  | seImm x nn | sneImm x nn | seReg x y | sneReg x y | skp x | sknp x =>
    obtain ⟨c, rfl⟩ := h
    rw [State.skipIf_pc, State.advancePc_pc]
    split
    · bv_omega
    · exact hadv
  | ldVxK x =>
    rcases h with rfl | rfl
    · exact hadv
    · omega
  | _ => cases h; exact hadv

theorem exec_keeps_inv {i : Instr} {s t : State} (hs : s.Inv) (hpc : s.pc.toNat ≤ 0xFFE) (h : exec i s = .next t) :
    t.Inv := by
  rcases exec_next_cases h with ⟨hw, hp⟩ | ⟨f, -, rfl⟩
  · exact ⟨exec_keeps_memory_wf hs.memory h hw, pc_le_of_pcAfter hs.stack hpc hp,
      exec_keeps_stack_le hs.stack hpc h hw⟩
  · exact ⟨hs.memory, hs.pc, hs.stack⟩

theorem tick_keeps_inv {s t : State} (hs : s.Inv) (h : tick hwParams s = .next t) : t.Inv := by
  rcases tick_cases s with ⟨hpc, w, -, ⟨i, -, hi⟩ | ⟨e, -, hf⟩⟩ | ⟨-, hf⟩
  · exact exec_keeps_inv hs hpc (hi.symm.trans h)
  · rw [hf] at h; cases h
    exact ⟨hs.memory, hs.pc, hs.stack⟩
  · rw [hf] at h; cases h
    exact ⟨hs.memory, hs.pc, hs.stack⟩

theorem load_keeps_inv {s : State} (hs : s.Inv) (data : List Byte) : (load data s).Inv := by
  unfold load
  split
  next hlen =>
    have htop : Config.programBase + data.length ≤ Config.memSize := by
      simp only [Config.loadMax, Config.programBase, Config.memSize] at *
      omega
    exact ⟨Memory.writeBytes_wf hs.memory _ _ htop, hs.pc, hs.stack⟩
  next => exact ⟨hs.memory, hs.pc, hs.stack⟩

theorem keyDown_keeps_inv {s : State} (hs : s.Inv) (index : Nat) (pressed : Bool) : (keyDown index pressed s).Inv := by
  unfold keyDown
  split <;> exact ⟨hs.memory, hs.pc, hs.stack⟩

theorem hostCall_keeps_inv {c : HostCall} {s t : State} (hs : s.Inv) (h : hostCall hwParams c s = .next t) : t.Inv := by
  cases c with
  | reset =>
    cases h
    rw [State.hostReset_hw]
    exact ⟨State.reset_inv.memory, State.reset_inv.pc, State.reset_inv.stack⟩
  | getDisplay => cases h; exact hs
  | tick => exact tick_keeps_inv hs (whenRunning_eq_next h).2
  | tickTimers =>
    cases (whenRunning_eq_next h).2
    exact ⟨hs.memory, hs.pc, hs.stack⟩
  | keyDown index pressed =>
    cases (whenRunning_eq_next h).2
    exact keyDown_keeps_inv hs index pressed
  | load data =>
    cases (whenRunning_eq_next h).2
    exact load_keeps_inv hs data

/-- Settles O12: taking the call off the list touches nothing the invariant speaks of, and every call keeps it. -/
theorem stepKeepsMachineInvariant : Obligations.StepKeepsMachineInvariant := by
  intro s t hs h
  obtain ⟨c, rest, hstep⟩ := step_eq_hostCall s
  exact hostCall_keeps_inv (s := { s with calls := rest }) ⟨hs.memory, hs.pc, hs.stack⟩ (hstep.symm.trans h)

/-! ### The fault record -/

/-- A fatal condition taken with the word it was fetched for, or with none, leaves a sound record. -/
theorem haltRecordSound_takeFatal {s : State} {op : Option Word} {f : Fatal}
    (hop : op = none ↔ f.cause = .fetchOutOfRange ∨ f.cause.fromHostCall = true) (hlow : f.cause ≠ .lowMemoryAccess) :
    (s.takeFatal op f).HaltRecordSound := by
  intro r hr
  cases hr
  exact ⟨rfl, hop, hlow⟩

theorem State.Running.haltRecordSound {s : State} (h : s.Running) : s.HaltRecordSound :=
  fun r hr => by rw [h] at hr; cases hr

/-- The causes of an instruction are found after its word was fetched. -/
theorem causesRaised_afterFetch {i : Instr} {c : Cause} (h : c ∈ causesRaised i) :
    c ≠ .fetchOutOfRange ∧ c.fromHostCall = false ∧ c ≠ .lowMemoryAccess := by
  cases i <;> simp only [causesRaised, List.mem_singleton, List.not_mem_nil] at h <;> subst h <;> decide

theorem exec_haltRecordSound {i : Instr} {s t : State} (hrun : s.Running) (h : exec i s = .next t) :
    t.HaltRecordSound := by
  rcases exec_next_cases h with ⟨hw, -⟩ | ⟨f, hf, rfl⟩
  · exact State.Running.haltRecordSound ((hw.parts.status (partsWritten_not_runStatus i)).trans hrun)
  · obtain ⟨h1, h2, h3⟩ := causesRaised_afterFetch hf
    exact haltRecordSound_takeFatal (by simp [h1, h2]) h3

theorem tick_haltRecordSound {s t : State} (hrun : s.Running) (h : tick hwParams s = .next t) : t.HaltRecordSound := by
  rcases tick_cases s with ⟨hpc, w, -, ⟨i, -, hi⟩ | ⟨e, -, hf⟩⟩ | ⟨-, hf⟩
  · exact exec_haltRecordSound hrun (hi.symm.trans h)
  · rw [hf] at h; cases h
    exact haltRecordSound_takeFatal (by simp [Cause.fromHostCall]) (by simp)
  · rw [hf] at h; cases h
    exact haltRecordSound_takeFatal (by simp) (by simp)

theorem load_haltRecordSound {s : State} (hrun : s.Running) (data : List Byte) : (load data s).HaltRecordSound := by
  unfold load
  split
  · exact State.Running.haltRecordSound hrun
  · exact haltRecordSound_takeFatal (by simp [Cause.fromHostCall]) (by simp)

theorem keyDown_haltRecordSound {s : State} (hrun : s.Running) (index : Nat) (pressed : Bool) :
    (keyDown index pressed s).HaltRecordSound := by
  unfold keyDown
  split
  · exact State.Running.haltRecordSound hrun
  · exact haltRecordSound_takeFatal (by simp [Cause.fromHostCall]) (by simp)

theorem hostCall_keeps_haltRecordSound {c : HostCall} {s t : State} (hs : s.HaltRecordSound)
    (h : hostCall hwParams c s = .next t) : t.HaltRecordSound := by
  cases c with
  | reset => cases h; exact State.Running.haltRecordSound rfl
  | getDisplay => cases h; exact hs
  | tick => exact tick_haltRecordSound (whenRunning_eq_next h).1 (whenRunning_eq_next h).2
  | tickTimers =>
    obtain ⟨hrun, ht⟩ := whenRunning_eq_next h
    cases ht
    exact State.Running.haltRecordSound hrun
  | keyDown index pressed =>
    obtain ⟨hrun, ht⟩ := whenRunning_eq_next h
    cases ht
    exact keyDown_haltRecordSound hrun index pressed
  | load data =>
    obtain ⟨hrun, ht⟩ := whenRunning_eq_next h
    cases ht
    exact load_haltRecordSound hrun data

/-- Settles O13: a call on a HALTED core keeps the record or clears it, and each fatal condition of a RUNNING core is
taken with the word it has. -/
theorem stepKeepsHaltRecordSound : Obligations.StepKeepsHaltRecordSound := by
  intro s t hs h
  obtain ⟨c, rest, hstep⟩ := step_eq_hostCall s
  exact hostCall_keeps_haltRecordSound (s := { s with calls := rest }) hs (hstep.symm.trans h)

end Sys2Proof.Machine
end

section
/-! The host calls `reset`, `key_down`, `load` and `tick_timers`, what a HALTED core accepts, and runs that stand still
(60_exceptions.md; 70_reset_and_hazards.md). -/

namespace Sys2Proof.Machine

/-! ### Canonical memory -/

/-- A canonical memory lists exactly the bytes that differ from their reset contents. -/
theorem Memory.mem_iff_read {m : Memory} (hm : Memory.wf m) (c : Host.Cell) :
    c ∈ m ↔ Memory.read m c.1 = c.2 ∧ c.2 ≠ resetByte c.1 := by
  induction m with
  | nil => simp [eq_comm]
  | cons d m ih =>
    obtain ⟨hd, hm'⟩ := List.pairwise_cons.1 hm.1
    have ih := ih ⟨hm', fun e he => hm.2 e (List.mem_cons_of_mem _ he)⟩
    rw [List.mem_cons, Memory.read_cons]
    by_cases hk : d.1 = c.1
    · have hnot : c ∉ m := fun hc => absurd hk (Nat.ne_of_lt (hd c hc))
      rw [if_pos hk]
      constructor
      · rintro (rfl | hc)
        · exact ⟨rfl, (hm.2 c List.mem_cons_self).2⟩
        · exact absurd hc hnot
      · exact fun h => .inl (Prod.ext hk.symm h.1.symm)
    · have hne : c ≠ d := fun h => hk (by rw [h])
      rw [if_neg hk, ← ih]
      simp [hne]

/-- Settles O15: canonical memories that read alike list the same cells, in the one rising order. -/
theorem canonicalMemoryIsFixedByItsReads : Obligations.CanonicalMemoryIsFixedByItsReads := by
  intro m n hm hn h
  have hirrefl : Std.Irrefl fun c d : Host.Cell => c.1 < d.1 := ⟨fun c => Nat.lt_irrefl c.1⟩
  have hantisymm : Std.Antisymm fun c d : Host.Cell => c.1 < d.1 := ⟨fun _ _ h h' => absurd h' (Nat.lt_asymm h)⟩
  refine hm.1.eq_of_mem_iff hn.1 fun c => ?_
  rw [Memory.mem_iff_read hm, Memory.mem_iff_read hn, h]

/-! ### reset (R38, R200) -/

/-- Settles O16: the reset memory lists nothing, so its bytes are the reset contents. -/
theorem resetStateHoldsResetValues : Obligations.ResetStateHoldsResetValues := by
  refine ⟨fun x => ?_, rfl, rfl, rfl, rfl, fun k => ?_, rfl, Display.lit_clear, fun k => ?_, rfl, rfl, fun k hk => ?_,
    fun a ha => resetByte_above ha⟩
  · simp [State.readV, State.reset]
  · simp [State.reset]
  · simp [State.reset]
  · exact List.getD_eq_getElem fontRom _ hk

/-- Settles O17: under this hardware's parameters the host's reset is the reset state. -/
theorem resetCallRestoresConstructedState : Obligations.ResetCallRestoresConstructedState := by
  intro s rest hcalls
  rw [step_of_calls_cons hcalls, hostCall, State.hostReset_hw]

/-- Settles O18: every call but `get_display` and `reset` asks for a RUNNING core. -/
theorem haltedCoreAcceptsOnlyResetAndDisplay : Obligations.HaltedCoreAcceptsOnlyResetAndDisplay := by
  intro s r rest hr
  have hfault (o : Outcome) : whenRunning { s with calls := rest } o = .fault (.coreHalted r) :=
    whenRunning_halted hr o
  refine ⟨fun h => ?_, fun h => ?_, fun index pressed h => ?_, fun data h => ?_, fun h => ?_, fun h => ?_⟩
  · exact (step_of_tickIsNext h).trans (hfault _)
  · exact (step_of_calls_cons h).trans (hfault _)
  · exact (step_of_calls_cons h).trans (hfault _)
  · exact (step_of_calls_cons h).trans (hfault _)
  · exact step_of_calls_cons h
  · exact ⟨_, step_of_calls_cons h, rfl⟩

/-! ### key_down and load (R187, R189) -/

theorem haltsWith_takeFatal (s : State) (op : Option Word) (f : Fatal) :
    HaltsWith s f.cause f.info (.next (s.takeFatal op f)) := ⟨_, rfl, rfl, rfl⟩

theorem step_keyDown {s : State} {rest : List HostCall} {index : Nat} {pressed : Bool}
    (hcalls : s.calls = .keyDown index pressed :: rest) (hrun : s.Running) :
    step s = .next (keyDown index pressed { s with calls := rest }) :=
  (step_of_calls_cons hcalls).trans (whenRunning_running hrun _)

theorem step_load {s : State} {rest : List HostCall} {data : List Byte} (hcalls : s.calls = .load data :: rest)
    (hrun : s.Running) : step s = .next (load data { s with calls := rest }) :=
  (step_of_calls_cons hcalls).trans (whenRunning_running hrun _)

theorem keyDown_of_le {index : Nat} (h : index ≤ 15) (pressed : Bool) (s : State) :
    keyDown index pressed s = { s with keys := s.keys.set index pressed (by omega) } := dif_pos h

theorem keyDown_of_gt {index : Nat} (h : 15 < index) (pressed : Bool) (s : State) :
    keyDown index pressed s = s.takeFatal none ⟨.keyEventIndexOutOfRange, index⟩ := dif_neg (by omega)

/-- Settles O21: a legal index sets its entry of the keypad; another takes the fatal condition. -/
theorem keyDownSetsOneLevel : Obligations.KeyDownSetsOneLevel := by
  intro s rest index pressed hcalls hrun
  have hstep := step_keyDown hcalls hrun
  refine ⟨fun h => ?_, fun h => ?_⟩
  · rw [keyDown_of_le h] at hstep
    refine ⟨_, hstep, fun k => ?_, rfl, rfl, ?_⟩
    · simp only [Fin.getElem_fin, Vector.getElem_set, eq_comm]
    · exact Writes.frame ⟨fun _ _ => rfl, by constructor <;> simp⟩
  · rw [hstep, keyDown_of_gt h]
    exact haltsWith_takeFatal { s with calls := rest } none _

theorem load_of_le {data : List Byte} (h : data.length ≤ 3584) (s : State) :
    load data s = { s with mem := Memory.writeBytes s.mem 0x200 data } := if_pos h

theorem load_of_gt {data : List Byte} (h : 3584 < data.length) (s : State) :
    load data s = s.takeFatal none ⟨.loadTooLarge, data.length⟩ := if_neg (by simpa using h)

/-- Inside a block that was written, a read gives the block's byte. -/
theorem Memory.read_writeBytes_add {m : Memory} (hm : Memory.wf m) (a : Nat) {k : Nat} {bs : List Byte}
    (h : k < bs.length) : Memory.read (Memory.writeBytes m a bs) (a + k) = bs[k] := by
  rw [Memory.read_writeBytes hm.1, dif_pos (by omega)]
  simp

theorem Memory.read_writeBytes_outside {m : Memory} (hm : Memory.wf m) {a k : Nat} {bs : List Byte}
    (h : k < a ∨ a + bs.length ≤ k) : Memory.read (Memory.writeBytes m a bs) k = Memory.read m k := by
  rw [Memory.read_writeBytes hm.1, dif_neg (by omega)]

/-- Settles O23: the payload is one block write at 0x200. -/
theorem loadCopiesImage : Obligations.LoadCopiesImage := by
  intro s rest data hcalls hrun hm
  have hstep := step_load hcalls hrun
  refine ⟨fun h => ?_, fun h => ?_⟩
  · rw [load_of_le h] at hstep
    exact ⟨_, hstep, fun k hk => Memory.read_writeBytes_add hm _ hk, fun a ha => Memory.read_writeBytes_outside hm ha,
      rfl, rfl, Writes.frame ⟨fun _ _ => rfl, by constructor <;> simp⟩⟩
  · rw [hstep, load_of_gt h]
    exact haltsWith_takeFatal { s with calls := rest } none _

/-! ### tick_timers n times (R181) -/

/-- Settles O20: by induction on the calls, each of which takes 1 off both timers. -/
theorem timersReachZeroAndStay : Obligations.TimersReachZeroAndStay := by
  intro n s
  have htimers : (tickTimers^[n] s).dt.toNat = s.dt.toNat - n ∧ (tickTimers^[n] s).st.toNat = s.st.toNat - n := by
    induction n with
    | zero => exact ⟨rfl, rfl⟩
    | succ n ih =>
      obtain ⟨hdt, hst⟩ := ih
      rw [Function.iterate_succ_apply', State.tickTimers_dt, State.tickTimers_st, toNat_countDown, toNat_countDown, hdt,
        hst]
      omega
  obtain ⟨hdt, hst⟩ := htimers
  refine ⟨hdt, hst, ?_⟩
  rw [beep, beq_iff_eq, ← BitVec.toNat_inj, hst]
  simp only [BitVec.ofNat_eq_ofNat, BitVec.toNat_ofNat]
  omega

/-! ### Runs that stand still -/

/-- A RUNNING state that is its own next state stays, for any number of steps. -/
theorem run_of_step_self {s : State} (hrun : s.Running) (h : step s = .next s) (n : Nat) :
    Sys2Proof.core.run n s = .next s ∧ SafeRun n s := by
  induction n with
  | zero => exact ⟨rfl, hrun⟩
  | succ n ih =>
    refine ⟨?_, hrun, s, h, ih.2⟩
    have hcore : Sys2Proof.core.step s = .next s := h
    simp only [Host.Core.run, hcore]
    exact ih.1

/-- Settles O31: both instructions answer the very state, the jump because its target is PC, Fx0A by its stall. -/
theorem selfJumpAndKeyWaitAreFixedPoints : Obligations.SelfJumpAndKeyWaitAreFixedPoints := by
  intro n s hcalls hrun hpc hword
  have hstep : step s = tick hwParams s := (step_of_calls_nil hcalls).trans (whenRunning_running hrun _)
  refine run_of_step_self hrun ?_ n
  rcases hword with ⟨nnn, hi, hn⟩ | ⟨⟨x, hi⟩, hkeys⟩
  · have hpc' : zextAddr nnn = s.pc := BitVec.eq_of_toNat_eq ((toNat_zextAddr nnn).trans hn)
    rw [hstep, tick_of_decode hpc hi]
    show Host.Outcome.next { s.advancePc with pc := zextAddr nnn } = _
    rw [hpc', State.advancePc]
  · rw [hstep, tick_of_decode hpc hi]
    exact exec_ldVxK_of_none x ((lowestKey_eq_none_iff s.keys).2 hkeys)

/-! ### The parameters as an argument -/

/-- Settles O57: construction stores FONT_ROM, and reset keeps only the model's own two fields. -/
theorem resetStoresFontParameter : Obligations.ResetStoresFontParameter := by
  intro p s
  refine ⟨_, rfl, fun k => ?_, fun a ha => ?_, State.construct_wf p, rfl⟩
  · exact (State.read_construct p k.val).trans (dif_pos k.isLt)
  · exact (State.read_construct p a).trans (dif_neg (by simp only [Config.fontLen]; omega))

theorem execUnder_fontRom (p : Config.Params) (font : Vector Byte 80) (i : Instr) (s : State) :
    execUnder { p with fontRom := font } i s = execUnder p i s := by
  cases i <;> rfl

/-- Settles O58: only construction names FONT_ROM; a tick's fetch and execution read the other parameters. -/
theorem fontParameterActsOnlyAtReset : Obligations.FontParameterActsOnlyAtReset := by
  intro p font c s hc
  cases c with
  | reset => exact absurd rfl hc
  | load data | tickTimers | keyDown index pressed | getDisplay => rfl
  | tick =>
    have hfetch : fetch { p with fontRom := font } s = fetch p s := rfl
    simp only [hostCall, tick, hfetch, execUnder_fontRom]

theorem memRead_permitted {p : Config.Params} {a : Nat} (m : Memory) (ha : a ≤ 0xFFF)
    (hp : p.lowGuard = false ∨ 0x200 ≤ a) : memRead p .fetch m a = .ok (Memory.read m a) := by
  have hok : lowOk p .fetch a = true := by rcases hp with hp | hp <;> simp [lowOk, hp]
  rw [memRead, if_neg (by omega), if_pos hok]

theorem fetch_permitted {p : Config.Params} {s : State} (hpc : s.pc.toNat ≤ 0xFFE)
    (hp : p.lowGuard = false ∨ 0x200 ≤ s.pc.toNat) : fetch p s = .ok s.wordAtPc := by
  rw [fetch, memRead_permitted s.mem (by omega) hp, memRead_permitted s.mem (by omega) (hp.imp_right (by omega))]
  rfl

theorem fetch_guarded {p : Config.Params} {s : State} (hp : p.lowGuard = true) (hpc : s.pc.toNat < 0x200) :
    fetch p s = .error ⟨.lowMemoryAccess, s.pc.toNat⟩ := by
  have hlow : ¬ lowOk p .fetch s.pc.toNat = true := by simp [lowOk, hp]; omega
  rw [fetch, memRead, if_neg (by omega), if_neg hlow]

/-- Settles O59: the tick is the fetch under its parameters and then Execute under them. -/
theorem tickFollowsItsParameters : Obligations.TickFollowsItsParameters := by
  intro p s hrun
  refine ⟨fun i hpc hp hi => ?_, fun hp hpc => ?_⟩
  · rw [hostCall, whenRunning_running hrun, tick, fetch_permitted hpc hp]
    simp only [hi]
  · rw [hostCall, whenRunning_running hrun, tick, fetch_guarded hp hpc]
    rfl

/-! ### LOW_GUARD on blocks (R56, R146) -/

/-- The block check stops at the first address that LOW_GUARD refuses. -/
theorem blockFault_guarded {p : Config.Params} {kind : AccessKind} {base count k : Nat} (hk : k < count)
    (htop : base + count ≤ 0x1000) (hbad : lowOk p kind (base + k) = false)
    (hok : ∀ j < k, lowOk p kind (base + j) = true) :
    blockFault p kind base count = some ⟨.lowMemoryAccess, base + k⟩ := by
  have hfind : ((List.range count).find? fun j => !lowOk p kind (base + j)) = some k := by
    rw [List.find?_range_eq_some]
    refine ⟨by simp [hbad], List.mem_range.2 hk, fun j hj => by simp [hok j hj]⟩
  rw [blockFault, if_neg (by omega), hfind]
  rfl

theorem afterBlockCheck_guarded {p : Config.Params} {kind : AccessKind} {base count k : Nat} (t : State)
    (hk : k < count) (htop : base + count ≤ 0x1000) (hbad : lowOk p kind (base + k) = false)
    (hok : ∀ j < k, lowOk p kind (base + j) = true) :
    afterBlockCheck p kind base count t = .error ⟨.lowMemoryAccess, base + k⟩ := by
  rw [afterBlockCheck, blockFault_guarded hk htop hbad hok]

/-- Under LOW_GUARD a block write below 0x200 fails at its first byte. -/
theorem afterBlockCheck_write_guarded {p : Config.Params} {base count : Nat} (t : State) (hp : p.lowGuard = true)
    (hbase : base < 0x200) (hpos : 0 < count) (hcount : count ≤ 16) :
    afterBlockCheck p .dataWrite base count t = .error ⟨.lowMemoryAccess, base⟩ :=
  afterBlockCheck_guarded (k := 0) t hpos (by omega) (by simp [lowOk, hp]; omega) (by simp)

/-- Under LOW_GUARD a block read fails at its first byte between the font and 0x200. -/
theorem afterBlockCheck_read_guarded {p : Config.Params} {base count k : Nat} (t : State) (hp : p.lowGuard = true)
    (hk : k < count) (hcount : count ≤ 16) (hlow : 0x050 ≤ base + k) (hhigh : base + k < 0x200)
    (hfont : ∀ j < k, base + j < 0x050) :
    afterBlockCheck p .dataRead base count t = .error ⟨.lowMemoryAccess, base + k⟩ := by
  refine afterBlockCheck_guarded t hk (by omega) (by simp [lowOk, hp]; omega) fun j hj => ?_
  have := hfont j hj
  simp [lowOk, hp]; omega

/-- A block read inside the font is permitted under every parameters. -/
theorem afterBlockCheck_read_font (p : Config.Params) {base count : Nat} (t : State) (h : base + count ≤ 0x050) :
    afterBlockCheck p .dataRead base count t = .ok t := by
  have hfind : ((List.range count).find? fun j => !lowOk p .dataRead (base + j)) = none := by
    rw [List.find?_eq_none]
    intro j hj
    have := List.mem_range.1 hj
    simp [lowOk]; omega
  rw [afterBlockCheck, blockFault, if_neg (by omega), hfind]
  rfl

/-- Settles O40: the fetch and the two kinds of block checks under LOW_GUARD. -/
theorem lowGuardMakesLowAccessesFatal : Obligations.LowGuardMakesLowAccessesFatal := by
  intro p s hp
  refine ⟨fetch_guarded hp, fun x hbase => ⟨?_, ?_⟩, fun x _ htop => ?_, fun x k hk hlow hhigh hfont => ?_,
    fun x y n k hk hlow hhigh hfont => ?_⟩
  · exact afterBlockCheck_write_guarded _ hp hbase (by omega) (by omega)
  · exact afterBlockCheck_write_guarded _ hp hbase (by omega) (by omega)
  · exact ⟨_, afterBlockCheck_read_font p _ (by omega)⟩
  · exact afterBlockCheck_read_guarded _ hp (by omega) (by omega) hlow hhigh hfont
  · exact afterBlockCheck_read_guarded _ hp hk (by omega) hlow hhigh hfont

end Sys2Proof.Machine
end

section
/-! The results of control flow, arithmetic, index, key and timer instructions (41_control_flow.md, 42_alu.md,
43_index_memory.md section 2, 45_timers_input.md). Each frame is the instruction's row of the tables, `exec_frame`. -/

namespace Sys2Proof.Machine

/-! ### Control flow -/

/-- Settles O24: on either side of the depth check. -/
theorem returnPopsTopEntry : Obligations.ReturnPopsTopEntry := by
  refine ⟨rfl, fun s => ⟨fun h => ?_, fun h => ?_⟩⟩
  · exact ⟨_, exec_ret_of_pos h, rfl, rfl, rfl, exec_frame (exec_ret_of_pos h) rfl⟩
  · rw [exec_ret_empty h]
    exact haltsWith_takeFatal s _ _

/-- Settles O25: neither has a check, and `zext` keeps the number. -/
theorem jumpAndNoOperationMoveOnlyPc : Obligations.JumpAndNoOperationMoveOnlyPc := by
  intro nnn s
  exact ⟨toNat_formNnn 0x1 nnn, rfl, ⟨_, rfl, toNat_zextAddr nnn, exec_frame (i := .jp nnn) rfl rfl⟩,
    _, rfl, rfl, exec_frame (i := .nop) rfl rfl⟩

/-- Settles O26: on either side of the depth check. -/
theorem callPushesReturnAddress : Obligations.CallPushesReturnAddress := by
  intro nnn s
  refine ⟨toNat_formNnn 0x2 nnn, fun h => ?_, fun h => ?_⟩
  · have hexec := exec_call_of_lt nnn (show s.sp.val < 16 by omega)
    refine ⟨_, hexec, toNat_zextAddr nnn, rfl, fun k => ?_, exec_frame hexec rfl⟩
    simp only [Fin.getElem_fin, Vector.getElem_set, eq_comm]
  · rw [exec_call_full nnn h]
    exact haltsWith_takeFatal s _ _

/-- Settles O27: the sum of 12 and 8 bits fits in 16. -/
theorem jumpWithOffsetIsExactSum : Obligations.JumpWithOffsetIsExactSum := by
  intro nnn s
  refine ⟨_, rfl, ?_, exec_frame (i := .jpV0 nnn) rfl rfl⟩
  simp only [BitVec.toNat_add, toNat_zextAddr, toNat_zextByte]
  omega

theorem State.advancePc_skipIf_pc (s : State) (c : Bool) :
    (s.advancePc.skipIf c).pc = if c = true then s.pc + 4 else s.pc + 2 := by
  have h4 : s.pc + 2 + 2 = s.pc + 4 := by rw [BitVec.add_assoc]; rfl
  rw [State.skipIf_pc, State.advancePc_pc, h4]

/-- Settles O28: the condition is the comparison of Vx with nn. -/
theorem skipsOnImmediate : Obligations.SkipsOnImmediate := by
  intro x nn s
  refine ⟨toNat_formXnn 0x3 x nn, toNat_formXnn 0x4 x nn,
    ⟨_, rfl, ?_, exec_frame (i := .seImm x nn) rfl (by simp)⟩, _, rfl, ?_, exec_frame (i := .sneImm x nn) rfl (by simp)⟩
  · simp [State.advancePc_skipIf_pc]
  · simp [State.advancePc_skipIf_pc]

/-- Settles O29: the condition is the comparison of Vx with Vy. -/
theorem skipsOnRegisters : Obligations.SkipsOnRegisters := by
  intro x y s
  refine ⟨toNat_formXyn 0x5 x y 0, toNat_formXyn 0x9 x y 0,
    ⟨_, rfl, ?_, exec_frame (i := .seReg x y) rfl (by simp)⟩, _, rfl, ?_, exec_frame (i := .sneReg x y) rfl (by simp)⟩
  · simp [State.advancePc_skipIf_pc]
  · simp [State.advancePc_skipIf_pc]

/-! ### Push and pop (R111) -/

/-- One more pop after n pops gives one more word at the end. -/
theorem popAll_succ {n : Nat} {s t u : State} {ws : List Word} {w : Word} (hn : popAll n s = .ok (ws, t))
    (hw : t.pop = .ok (w, u)) : popAll (n + 1) s = .ok (ws ++ [w], u) := by
  induction n generalizing s ws with
  | zero =>
    cases hn
    simp only [popAll, hw, List.nil_append]
  | succ n ih =>
    rw [popAll] at hn ⊢
    cases hp : s.pop with
    | error f => rw [hp] at hn; cases hn
    | ok r =>
      simp only [hp] at hn ⊢
      cases hr : popAll n r.2 with
      | error f => rw [hr] at hn; cases hn
      | ok q =>
        rw [hr] at hn; cases hn
        rw [ih hr]
        rfl

/-- u has the call stack of s: the same depth and the same entries below it. -/
def SameCallStack (s u : State) : Prop :=
  u.sp = s.sp ∧ ∀ k : Fin 16, k.val < s.sp.val → u.stack[k] = s.stack[k]

/-- A pop gives the word pushed last and leaves the call stack from before the push. -/
theorem pop_of_push {s t u : State} {w : Word} (hpush : s.push w = .ok t) (hsame : SameCallStack t u) :
    ∃ u', u.pop = .ok (w, u') ∧ SameCallStack s u' := by
  by_cases hlt : s.sp.val < 16
  · rw [State.push_of_lt s w hlt] at hpush
    cases hpush
    obtain ⟨hsp, hbelow⟩ := hsame
    have hpos : u.sp.val = s.sp.val + 1 := congrArg Fin.val hsp
    have htop : u.stack[u.sp.val - 1]'(by omega) = w := by
      simpa [hpos] using hbelow ⟨s.sp.val, hlt⟩ (Nat.lt_succ_self _)
    refine ⟨_, (State.pop_of_pos u (by omega)).trans (by rw [htop]), Fin.ext (by simp [hpos]), fun k hk => ?_⟩
    exact (hbelow k (Nat.lt_succ_of_lt hk)).trans (Vector.getElem_set_ne hlt _ (by omega))
  · rw [State.push_full s w hlt] at hpush
    cases hpush

/-- Pushing and popping as many gives the reverse and leaves the call stack as it was. -/
theorem exists_pushAll_popAll (ws : List Word) (s : State) (h : s.sp.val + ws.length ≤ 16) :
    ∃ t u, pushAll ws s = .ok t ∧ popAll ws.length t = .ok (ws.reverse, u) ∧ SameCallStack s u := by
  induction ws generalizing s with
  | nil => exact ⟨s, s, rfl, rfl, rfl, fun _ _ => rfl⟩
  | cons w ws ih =>
    rw [List.length_cons] at h
    obtain ⟨s', hpush, hsp⟩ : ∃ s', s.push w = .ok s' ∧ s'.sp.val = s.sp.val + 1 :=
      ⟨_, State.push_of_lt s w (by omega), rfl⟩
    obtain ⟨t, u, ht, hu, hsame⟩ := ih s' (by omega)
    obtain ⟨u', hpop, hsame'⟩ := pop_of_push hpush hsame
    refine ⟨t, u', ?_, ?_, hsame'⟩
    · rw [pushAll, hpush]
      exact ht
    · rw [List.reverse_cons]
      exact popAll_succ hu hpop

theorem pushAll_overflow (ws : List Word) (s : State) (h : 16 < s.sp.val + ws.length) :
    pushAll ws s = .error ⟨.stackOverflow, 16⟩ := by
  induction ws generalizing s with
  | nil => rw [List.length_nil] at h; omega
  | cons w ws ih =>
    rw [List.length_cons] at h
    rcases Nat.lt_or_ge s.sp.val 16 with hlt | hge
    · rw [pushAll, State.push_of_lt s w hlt]
      exact ih _ (by simp only; omega)
    · have hfull : s.sp.val = 16 := by omega
      rw [pushAll, State.push_full s w (by omega), hfull]

/-- Settles O30: the pops undo the pushes one by one, and the push at depth 16 is the overflow. -/
theorem stackIsLastInFirstOut : Obligations.StackIsLastInFirstOut := by
  refine fun ws s => ⟨fun h => ?_, pushAll_overflow ws s⟩
  obtain ⟨t, u, ht, hu, hsp, -⟩ := exists_pushAll_popAll ws s h
  exact ⟨t, u, ht, hu, hsp⟩

/-! ### Arithmetic -/

/-- Settles O32: each is one register write, and bit-vector addition wraps. -/
theorem loadsAndImmediateAdd : Obligations.LoadsAndImmediateAdd := by
  intro x y nn s
  refine ⟨toNat_formXnn 0x6 x nn, toNat_formXnn 0x7 x nn, toNat_formXyn 0x8 x y 0,
    ⟨_, rfl, by simp, rfl, exec_frame (i := .ldImm x nn) rfl rfl⟩,
    ⟨_, rfl, ?_, rfl, exec_frame (i := .addImm x nn) rfl rfl⟩,
    _, rfl, by simp, rfl, exec_frame (i := .ldReg x y) rfl rfl⟩
  rw [State.readV_writeV_self, BitVec.toNat_add]

/-- Settles O33: the operators of bit vectors act bit by bit. -/
theorem bitwiseOperations : Obligations.BitwiseOperations := by
  intro x y s
  refine ⟨⟨_, rfl, fun k => ?_, rfl, exec_frame (i := .orReg x y) rfl rfl⟩,
    ⟨_, rfl, fun k => ?_, rfl, exec_frame (i := .andReg x y) rfl rfl⟩,
    _, rfl, fun k => ?_, rfl, exec_frame (i := .xorReg x y) rfl rfl⟩
  · rw [State.readV_writeV_self, BitVec.getLsbD_or]
  · rw [State.readV_writeV_self, BitVec.getLsbD_and]
  · rw [State.readV_writeV_self, BitVec.getLsbD_xor]

/-- With x other than 0xF the result is the final Vx. -/
theorem State.readV_writeResultAndFlag_self (s : State) {x : Reg} (hx : x ≠ VF) (a b : Byte) :
    (s.writeResultAndFlag x a b).readV x = a := by
  rw [State.readV_writeResultAndFlag, if_neg hx, if_pos rfl]

theorem flagByte_decide (c : Prop) [Decidable c] : flagByte (decide c) = if c then 1 else 0 := by
  simp [flagByte]

/-- Settles O34: the flag is written last, the sum before it. -/
theorem addWritesCarry : Obligations.AddWritesCarry := by
  intro x y s
  refine ⟨_, rfl, ?_, fun hx => ?_, rfl, exec_frame (i := .addReg x y) rfl rfl⟩
  · rw [State.readV_writeResultAndFlag_VF, carryFlag, flagByte_decide]
  · rw [State.readV_writeResultAndFlag_self _ hx, BitVec.toNat_add]

theorem toNat_sub_byte (a b : Byte) : (a - b).toNat = (a.toNat + 256 - b.toNat) % 256 := by
  rw [BitVec.toNat_sub]
  omega

/-- Settles O35: the flag is written last, the difference before it. -/
theorem subtractionsWriteNoBorrow : Obligations.SubtractionsWriteNoBorrow := by
  intro x y s
  refine ⟨⟨_, rfl, ?_, fun hx => ?_, rfl, exec_frame (i := .sub x y) rfl rfl⟩,
    _, rfl, ?_, fun hx => ?_, rfl, exec_frame (i := .subn x y) rfl rfl⟩
  · rw [State.readV_writeResultAndFlag_VF, noBorrowFlag, flagByte_decide]
  · rw [State.readV_writeResultAndFlag_self _ hx, toNat_sub_byte]
  · rw [State.readV_writeResultAndFlag_VF, noBorrowFlag, flagByte_decide]
  · rw [State.readV_writeResultAndFlag_self _ hx, toNat_sub_byte]

theorem toNat_flagByte (c : Bool) : (flagByte c).toNat = c.toNat := by cases c <;> rfl

theorem toNat_shiftOutLow (a : Byte) : (shiftOutLow a).toNat = a.toNat % 2 := by
  rw [shiftOutLow, toNat_flagByte, BitVec.getLsbD, Nat.toNat_testBit, pow_zero, Nat.div_one]

theorem toNat_shiftOutHigh (a : Byte) : (shiftOutHigh a).toNat = a.toNat / 128 := by
  rw [shiftOutHigh, toNat_flagByte, BitVec.getLsbD, Nat.toNat_testBit]
  omega

/-- What 8xy6 does under any parameters, in terms of the register it reads. -/
theorem shiftRightBody_results (p : Config.Params) (x y : Reg) (s : State) :
    ((shiftRightBody p x y s).readV VF).toNat = (s.readV (shiftSource p x y)).toNat % 2 ∧
      (x ≠ VF → ((shiftRightBody p x y s).readV x).toNat = (s.readV (shiftSource p x y)).toNat / 2) := by
  refine ⟨?_, fun hx => ?_⟩
  · rw [shiftRightBody, State.readV_writeResultAndFlag_VF, toNat_shiftOutLow]
  · rw [shiftRightBody, State.readV_writeResultAndFlag_self _ hx, BitVec.toNat_ushiftRight, Nat.shiftRight_eq_div_pow]

/-- What 8xyE does under any parameters, in terms of the register it reads. -/
theorem shiftLeftBody_results (p : Config.Params) (x y : Reg) (s : State) :
    ((shiftLeftBody p x y s).readV VF).toNat = (s.readV (shiftSource p x y)).toNat / 128 ∧
      (x ≠ VF → ((shiftLeftBody p x y s).readV x).toNat = 2 * (s.readV (shiftSource p x y)).toNat % 256) := by
  refine ⟨?_, fun hx => ?_⟩
  · rw [shiftLeftBody, State.readV_writeResultAndFlag_VF, toNat_shiftOutHigh]
  · rw [shiftLeftBody, State.readV_writeResultAndFlag_self _ hx, BitVec.toNat_shiftLeft, Nat.shiftLeft_eq, Nat.mul_comm]

/-- Settles O36: on this hardware the shifts read Vx. -/
theorem shiftsWriteShiftedOutBit : Obligations.ShiftsWriteShiftedOutBit := by
  intro x y s
  obtain ⟨hrf, hrx⟩ := shiftRightBody_results hwParams x y s.advancePc
  obtain ⟨hlf, hlx⟩ := shiftLeftBody_results hwParams x y s.advancePc
  exact ⟨⟨_, rfl, hrf, hrx, rfl, exec_frame (i := .shr x y) rfl rfl⟩,
    _, rfl, hlf, hlx, rfl, exec_frame (i := .shl x y) rfl rfl⟩

theorem toNat_i_bumpI {p : Config.Params} (hp : p.ldstIncI = true) (x : Reg) (s : State) :
    (s.bumpI p x).i.toNat = (s.i.toNat + x.val + 1) % 65536 := by
  rw [State.bumpI, if_pos hp]
  simp only [BitVec.toNat_add, BitVec.toNat_ofNat]
  omega

/-- A block operation that completes has the effect behind its check. -/
theorem afterBlockCheck_eq_ok {p : Config.Params} {k : AccessKind} {base n : Nat} {t u : State}
    (h : afterBlockCheck p k base n t = .ok u) : u = t := by
  unfold afterBlockCheck at h
  split at h <;> cases h
  rfl

/-- Settles O39: the shifts' source is Vy, and both block transfers end with the advance of I. -/
theorem historicalVariantsFollowParameters : Obligations.HistoricalVariantsFollowParameters := by
  intro p x y s
  refine ⟨fun hp => ?_, fun hp => ⟨fun t ht => ?_, fun t ht => ?_⟩⟩
  · have hsrc : shiftSource p x y = y := if_pos hp
    obtain ⟨hrf, hrx⟩ := hsrc ▸ shiftRightBody_results p x y s
    obtain ⟨hlf, hlx⟩ := hsrc ▸ shiftLeftBody_results p x y s
    exact ⟨hrf, hrx, hlf, hlx⟩
  · rw [afterBlockCheck_eq_ok ht]
    exact toNat_i_bumpI hp x _
  · rw [afterBlockCheck_eq_ok ht]
    exact toNat_i_bumpI hp x _

/-- The bytes that a mask can leave are those inside it. -/
theorem exists_and_eq_iff (nn v : Byte) : (∃ rand, rand &&& nn = v) ↔ v &&& ~~~nn = 0 := by
  constructor
  · rintro ⟨rand, rfl⟩
    rw [BitVec.and_assoc, BitVec.and_not_self]
    exact BitVec.and_zero
  · intro h
    refine ⟨v, ?_⟩
    calc v &&& nn = (v &&& nn) ||| (v &&& ~~~nn) := by rw [h]; exact BitVec.or_zero.symm
      _ = v := by rw [← BitVec.and_or_distrib_left, BitVec.or_not_self, BitVec.and_allOnes]

/-- Settles O37: the draw is masked, and a byte inside the mask is its own draw. -/
theorem randomByteIsMasked : Obligations.RandomByteIsMasked := by
  intro x nn s
  refine ⟨⟨_, rfl, State.readV_writeV_self _ _ _, rfl, rfl, exec_frame (i := .rnd x nn) rfl rfl⟩, fun v => ?_⟩
  have hbody (rand : Byte) : (randomBody rand x nn s).readV x = rand &&& nn := State.readV_writeV_self _ _ _
  simp only [hbody, exists_and_eq_iff]

theorem flagByte_eq_zero_or_one (c : Bool) : flagByte c = 0 ∨ flagByte c = 1 := by
  cases c
  · exact .inl rfl
  · exact .inr rfl

/-- Settles O38: all six write `flagByte` of some condition last; a draw that halts is not RUNNING. -/
theorem flagWritersLeaveZeroOrOne : Obligations.FlagWritersLeaveZeroOrOne := by
  intro i s t hi _ h ht
  have hflag {u : State} {x : Reg} {a : Byte} {c : Bool} :
      (u.writeResultAndFlag x a (flagByte c)).readV VF = 0 ∨ (u.writeResultAndFlag x a (flagByte c)).readV VF = 1 := by
    rw [State.readV_writeResultAndFlag_VF]
    exact flagByte_eq_zero_or_one c
  cases i with
  | addReg x y | sub x y | subn x y | shr x y | shl x y => cases h; exact hflag
  | drw x y n =>
    by_cases hb : BlockInRange s n.val
    · rw [exec_drw_of_inRange x y hb] at h; cases h
      rw [drawSprite, State.readV_writeV_self]
      exact flagByte_eq_zero_or_one _
    · rw [exec_drw_of_not_inRange x y hb] at h; cases h
      cases ht
  | _ => cases hi

/-! ### The index register, keys and timers -/

/-- Settles O41: `zext` keeps the number. -/
theorem loadIndexImmediate : Obligations.LoadIndexImmediate := by
  intro nnn s
  exact ⟨toNat_formNnn 0xA nnn, _, rfl, toNat_zextAddr nnn, rfl, exec_frame (i := .ldI nnn) rfl rfl⟩

/-- Settles O42: five times a byte fits in 16 bits. -/
theorem indexArithmetic : Obligations.IndexArithmetic := by
  intro x s
  refine ⟨⟨_, rfl, ?_, rfl, exec_frame (i := .addI x) rfl rfl⟩, _, rfl, ?_, rfl, exec_frame (i := .ldF x) rfl rfl⟩
  · simp only [BitVec.toNat_add, toNat_zextByte]
  · have := (s.readV x).isLt
    simp only [BitVec.toNat_mul, toNat_zextByte, BitVec.ofNat_eq_ofNat, BitVec.toNat_ofNat]
    omega

/-- Settles O53: on either side of the check of Vx. -/
theorem keySkipsReadLevel : Obligations.KeySkipsReadLevel := by
  intro x s
  refine ⟨fun h => ⟨?_, ?_⟩, fun h => ⟨?_, ?_⟩⟩
  · refine ⟨_, exec_skp_of_le h, ?_, exec_frame (exec_skp_of_le h) (by simp)⟩
    simp [State.advancePc_skipIf_pc]
  · refine ⟨_, exec_sknp_of_le h, ?_, exec_frame (exec_sknp_of_le h) (by simp)⟩
    rw [State.advancePc_skipIf_pc]
    cases s.keys[(s.readV x).toNat] <;> rfl
  · rw [exec_skp_of_gt h]
    exact haltsWith_takeFatal s _ _
  · rw [exec_sknp_of_gt h]
    exact haltsWith_takeFatal s _ _

/-- The words of d1 = F as numbers. -/
theorem toNat_formXnn_F (x : Reg) (nn : Byte) : (formXnn 0xF x nn).toNat = 0xF000 + nn.toNat + x.val * 0x100 := by
  rw [toNat_formXnn]
  simp only [BitVec.ofNat_eq_ofNat, BitVec.toNat_ofNat]
  omega

/-- Settles O54: one register write, and one timer write. -/
theorem delayTimerMoves : Obligations.DelayTimerMoves := by
  intro x s
  exact ⟨toNat_formXnn_F x 0x07, toNat_formXnn_F x 0x15,
    ⟨_, rfl, State.readV_writeV_self _ _ _, rfl, exec_frame (i := .ldVxDt x) rfl rfl⟩,
    _, rfl, rfl, rfl, exec_frame (i := .ldDtVx x) rfl rfl⟩

/-- Settles O55: the beep reads ST, and a tick returns its status. -/
theorem soundTimerWrite : Obligations.SoundTimerWrite := by
  intro x s
  refine ⟨_, rfl, rfl, rfl, exec_frame (i := .ldStVx x) rfl rfl, ?_, rfl⟩
  rw [beep, beq_iff_eq, ← BitVec.toNat_inj]
  rfl

theorem lowestKey_eq_some {keys : Vector Bool 16} {k : Reg} (hk : keys[k] = true)
    (hlow : ∀ j : Reg, j < k → keys[j] = false) : lowestKey keys = some k := by
  cases h : lowestKey keys with
  | none => rw [(lowestKey_eq_none_iff keys).1 h k] at hk; cases hk
  | some j =>
    rcases lt_trichotomy j k with hjk | rfl | hkj
    · have hj := lowestKey_down h; rw [hlow j hjk] at hj; cases hj
    · rfl
    · rw [lowestKey_least h k hkj] at hk; cases hk

/-- Settles O56: the search for the lowest key finds it or none. -/
theorem waitForKey : Obligations.WaitForKey := by
  intro x s
  refine ⟨fun k hk hlow => ?_, fun hnone => exec_ldVxK_of_none x ((lowestKey_eq_none_iff s.keys).2 hnone)⟩
  have hexec := exec_ldVxK_of_some x (lowestKey_eq_some hk hlow)
  refine ⟨_, hexec, ?_, rfl, exec_frame hexec rfl⟩
  rw [State.readV_writeV_self, BitVec.toNat_ofNat]
  omega

end Sys2Proof.Machine
end

section
/-! The I-relative memory instructions (43_index_memory.md). -/

namespace Sys2Proof.Machine

/-! ### Fx33 (R143) -/

theorem toNat_bcdDigits (b : Byte) :
    (bcdDigits b).map BitVec.toNat = [b.toNat / 100, b.toNat / 10 % 10, b.toNat % 10] := by
  simp [bcdDigits]

/-- The digits a completed Fx33 stored. -/
theorem toNat_read_bcdDigits {m : Memory} (hm : Memory.wf m) (base : Nat) (b : Byte) {k : Nat} (hk : k < 3) :
    (Memory.read (Memory.writeBytes m base (bcdDigits b)) (base + k)).toNat =
      [b.toNat / 100, b.toNat / 10 % 10, b.toNat % 10][k] := by
  rw [Memory.read_writeBytes_add hm base (bs := bcdDigits b) hk]
  simp only [← toNat_bcdDigits, List.getElem_map]
  rfl

theorem base_add_le {s : State} {n : Nat} (h : BlockInRange s n) (hn : 0 < n) : s.base + n ≤ 0x1000 :=
  h.resolve_left (by omega)

/-- Settles O43: one block write of the three digits, on either side of its check. -/
theorem storeDecimalDigits : Obligations.StoreDecimalDigits := by
  intro x s hm
  refine ⟨toNat_formXnn_F x 0x33, fun h => ?_, fun h => ?_, fun p hp hlow => ?_⟩
  · have hexec := exec_ldB_of_inRange x (.inr (show s.base + 3 ≤ 0x1000 by omega))
    exact ⟨_, hexec, toNat_read_bcdDigits hm s.base _ (k := 0) (by omega),
      toNat_read_bcdDigits hm s.base _ (k := 1) (by omega), toNat_read_bcdDigits hm s.base _ (k := 2) (by omega),
      fun a ha => Memory.read_writeBytes_outside hm ha, rfl, exec_frame hexec rfl⟩
  · rw [exec_ldB_of_not_inRange x (fun hb => absurd (base_add_le hb (by omega)) (by omega))]
    exact haltsWith_takeFatal s _ _
  · exact afterBlockCheck_write_guarded _ hp hlow (by omega) (by omega)

/-! ### Fx55 and Fx65 (R144, R145) -/

theorem State.getElem_regBlock (s : State) {x k : Reg} (h : k ≤ x) :
    (s.regBlock x)[k.val]'(by rw [State.length_regBlock]; exact Nat.lt_succ_of_le h) = s.readV k := by
  simp [State.regBlock, State.readV]

/-- The registers a completed Fx55 stored. -/
theorem read_storeRegs {s : State} (hm : Memory.wf s.mem) {x k : Reg} (h : k ≤ x) :
    Memory.read (Memory.writeBytes s.mem s.base (s.regBlock x)) (s.base + k.val) = s.readV k := by
  rw [Memory.read_writeBytes_add hm s.base (by rw [State.length_regBlock]; exact Nat.lt_succ_of_le h),
    State.getElem_regBlock s h]

/-- Settles O44: one block write of V0..Vx, on either side of its check. -/
theorem storeRegisterBlock : Obligations.StoreRegisterBlock := by
  intro x s hm
  refine ⟨fun h => ?_, fun h => ?_⟩
  · have hexec := exec_storeRegs_of_inRange (s := s) (x := x) (.inr (by omega))
    refine ⟨_, hexec, fun k hk => read_storeRegs hm hk, fun a ha => ?_, rfl, exec_frame hexec rfl⟩
    exact Memory.read_writeBytes_outside hm (by rw [State.length_regBlock]; omega)
  · rw [exec_storeRegs_of_not_inRange fun hb => absurd (base_add_le hb (by omega)) (by omega)]
    exact haltsWith_takeFatal s _ _

/-- Settles O45: `loadBlock` replaces V0..Vx, on either side of the check. -/
theorem loadRegisterBlock : Obligations.LoadRegisterBlock := by
  intro x s
  refine ⟨fun h => ?_, fun h => ?_⟩
  · have hexec := exec_loadRegs_of_inRange (s := s) (x := x) (.inr (by omega))
    exact ⟨_, hexec, fun k hk => (State.readV_loadBlock s.advancePc s.mem s.base x k).trans (if_pos hk), rfl,
      exec_frame hexec rfl⟩
  · rw [exec_loadRegs_of_not_inRange fun hb => absurd (base_add_le hb (by omega)) (by omega)]
    exact haltsWith_takeFatal s _ _

/-- Settles O46: the loaded bytes are the stored registers, read from the same memory at the same base. -/
theorem storeThenLoadRestoresRegisters : Obligations.StoreThenLoadRestoresRegisters := by
  intro x s t u hm h ht hmem hi
  rw [exec_storeRegs_of_inRange (.inr (by omega))] at ht
  cases ht
  have hbase : u.base = s.base := congrArg BitVec.toNat hi
  refine ⟨_, exec_loadRegs_of_inRange (.inr (by omega)), fun k => ?_⟩
  refine (State.readV_loadBlock u.advancePc u.mem u.base x k).trans ?_
  split
  next hk => rw [hmem, hbase]; exact read_storeRegs hm hk
  next => rfl

/-- Settles O47: the next fetch reads A + 2 and A + 3, where V0 and V1 were stored. -/
theorem storedInstructionIsFetchedNext : Obligations.StoredInstructionIsFetchedNext := by
  intro x s hm hx hbase h
  refine ⟨_, exec_storeRegs_of_inRange (.inr (by omega)), ?_⟩
  have hpc : (s.pc + 2).toNat = s.base := by bv_omega
  rw [fetch_hw, if_pos (by simp only [State.advancePc_pc]; omega)]
  simp only [State.advancePc_pc, hpc]
  have h0 := read_storeRegs hm (Fin.zero_le x)
  have h1 := read_storeRegs hm (show (1 : Reg) ≤ x from hx)
  exact congrArg₂ (fun hi lo => Except.ok (opcodeOf hi lo)) h0 h1

end Sys2Proof.Machine
end

section
/-! Drawing (44_display.md): the pixels of a sprite, that they are distinct, and what toggling them does. -/

namespace Sys2Proof.Machine

/-- Settles O48: the cleared display is dark at every pixel. -/
theorem clearScreen : Obligations.ClearScreen :=
  ⟨rfl, fun _ => ⟨_, rfl, Display.lit_clear, rfl, exec_frame (i := .cls) rfl rfl⟩⟩

/-- Settles O50: the check of the sprite's rows. -/
theorem drawOutOfRangeHalts : Obligations.DrawOutOfRangeHalts := by
  intro x y n s hn h
  rw [exec_drw_of_not_inRange x y fun hb => absurd (base_add_le hb hn) (by omega)]
  exact haltsWith_takeFatal s _ _

/-! ### The target pixels (R152, R153, R155) -/

theorem wrapPixel_eq_iff (px py : Nat) (p : Pixel) : wrapPixel px py = p ↔ p.1.val = px % 64 ∧ p.2.val = py % 32 := by
  simp [wrapPixel, Prod.ext_iff, Fin.ext_iff, eq_comm]

theorem mem_rowTargets {px0 py : Nat} {row : Byte} {p : Pixel} :
    p ∈ rowTargets px0 py row ↔ ∃ col < 8, row.getLsbD (7 - col) = true ∧ wrapPixel (px0 + col) py = p := by
  simp [rowTargets, List.mem_filterMap]

theorem mem_spriteTargets {px0 py : Nat} {rows : List Byte} {p : Pixel} :
    p ∈ spriteTargets px0 py rows ↔ ∃ r, ∃ h : r < rows.length, p ∈ rowTargets px0 (py + r) rows[r] := by
  induction rows generalizing py with
  | nil => simp [spriteTargets]
  | cons row rows ih =>
    rw [spriteTargets, List.mem_append, ih]
    constructor
    · rintro (h | ⟨r, hr, h⟩)
      · exact ⟨0, by simp, h⟩
      · rw [Nat.add_right_comm, Nat.add_assoc] at h
        exact ⟨r + 1, by simpa using hr, h⟩
    · rintro ⟨r, hr, h⟩
      cases r with
      | zero => exact .inl h
      | succ r =>
        refine .inr ⟨r, by simpa using hr, ?_⟩
        rw [Nat.add_right_comm, Nat.add_assoc]
        exact h

/-- The eight columns of one row stay apart modulo 64. -/
theorem nodup_rowTargets (px0 py : Nat) (row : Byte) : (rowTargets px0 py row).Nodup := by
  rw [rowTargets, List.Nodup, List.pairwise_filterMap]
  refine List.pairwise_lt_range.imp_of_mem fun {a b} ha hb hab p hp q hq hpq => ?_
  have hb8 := List.mem_range.1 hb
  cases (Option.ite_none_right_eq_some.1 hp).2
  cases (Option.ite_none_right_eq_some.1 hq).2
  have hcol := congrArg (fun p : Pixel => p.1.val) hpq
  simp only [wrapPixel] at hcol
  omega

/-- At most 32 rows stay apart modulo 32. -/
theorem nodup_spriteTargets (px0 py : Nat) (rows : List Byte) (h : rows.length ≤ 32) :
    (spriteTargets px0 py rows).Nodup := by
  induction rows generalizing py with
  | nil => exact List.nodup_nil
  | cons row rows ih =>
    rw [List.length_cons] at h
    refine List.nodup_append.2 ⟨nodup_rowTargets px0 py row, ih (py + 1) (by omega), fun p hp q hq hpq => ?_⟩
    obtain ⟨col, -, -, hp⟩ := mem_rowTargets.1 hp
    obtain ⟨r, hr, hq⟩ := mem_spriteTargets.1 hq
    obtain ⟨col', -, -, hq⟩ := mem_rowTargets.1 hq
    have hrow := ((wrapPixel_eq_iff _ _ _).1 hp).2
    have hrow' := ((wrapPixel_eq_iff _ _ _).1 hq).2
    rw [hpq] at hrow
    omega

/-- Reading a row from the left or from the right counts the same bits. -/
theorem length_rowTargets (px0 py : Nat) (row : Byte) :
    (rowTargets px0 py row).length = (List.range 8).countP row.getLsbD := by
  have hrev : (List.range 8).map (7 - ·) = (List.range 8).reverse := by decide
  calc (rowTargets px0 py row).length
      = (List.range 8).countP (row.getLsbD ∘ (7 - ·)) := by
        rw [rowTargets, List.length_filterMap_eq_countP]
        refine List.countP_congr fun col _ => ?_
        by_cases h : row.getLsbD (7 - col) = true <;> simp [h]
    _ = (List.range 8).countP row.getLsbD := by rw [← List.countP_map, hrev, List.countP_reverse]

theorem length_spriteTargets (px0 py : Nat) (rows : List Byte) :
    (spriteTargets px0 py rows).length = (rows.map fun row => (List.range 8).countP row.getLsbD).sum := by
  induction rows generalizing py with
  | nil => rfl
  | cons row rows ih =>
    rw [spriteTargets, List.length_append, length_rowTargets, ih, List.map_cons, List.sum_cons]

/-- Settles O52: 15 rows are fewer than the 32 that stay apart. -/
theorem spriteTargetsAreDistinct : Obligations.SpriteTargetsAreDistinct :=
  fun px0 py0 rows h => ⟨nodup_spriteTargets px0 py0 rows (by omega), length_spriteTargets px0 py0 rows⟩

/-- The pixels Dxyn toggles, in the order of R151's loops. -/
def drawTargets (x y : Reg) (n : RowCount) (s : State) : List Pixel :=
  spriteTargets (s.readV x).toNat (s.readV y).toNat (Memory.readBytes s.mem s.base n.val)

theorem nodup_drawTargets (x y : Reg) (n : RowCount) (s : State) : (drawTargets x y n s).Nodup :=
  nodup_spriteTargets _ _ _ (by rw [Memory.length_readBytes]; omega)

theorem mem_drawTargets {x y : Reg} {n : RowCount} {s : State} {p : Pixel} :
    p ∈ drawTargets x y n s ↔ SpriteCovers s x y n p := by
  simp only [drawTargets, mem_spriteTargets, mem_rowTargets, Memory.length_readBytes, Memory.getElem_readBytes,
    wrapPixel_eq_iff]
  constructor
  · rintro ⟨r, hr, col, hcol, hbit, hp⟩
    exact ⟨r, col, hr, hcol, hbit, hp⟩
  · rintro ⟨r, col, hr, hcol, hbit, hp⟩
    exact ⟨r, hr, col, hcol, hbit, hp⟩

/-! ### Toggling distinct pixels (R151) -/

theorem lit_drawPixels {ps : List Pixel} (hps : ps.Nodup) (d : Display) (c : Bool) (q : Pixel) :
    Display.lit (drawPixels ps d c).1 q = if q ∈ ps then !Display.lit d q else Display.lit d q := by
  induction ps generalizing d c with
  | nil => rfl
  | cons p ps ih =>
    obtain ⟨hp, hps⟩ := List.nodup_cons.1 hps
    rw [drawPixels_cons, ih hps, Display.lit_toggle]
    by_cases hq : p = q
    · subst hq
      simp [hp]
    · simp [hq, Ne.symm hq]

theorem drawPixels_collision {ps : List Pixel} (hps : ps.Nodup) (d : Display) (c : Bool) :
    (drawPixels ps d c).2 = true ↔ c = true ∨ ∃ p ∈ ps, Display.lit d p = true := by
  induction ps generalizing d c with
  | nil => simp
  | cons p ps ih =>
    obtain ⟨hp, hps⟩ := List.nodup_cons.1 hps
    have hrest : (∃ q ∈ ps, Display.lit (Display.toggle d p) q = true) ↔ ∃ q ∈ ps, Display.lit d q = true := by
      refine exists_congr fun q => and_congr_right fun hq => ?_
      rw [Display.lit_toggle, if_neg fun h : p = q => hp (h ▸ hq)]
    rw [drawPixels_cons, ih hps, hrest, Bool.or_eq_true, List.exists_mem_cons_iff, or_assoc]

/-! ### Dxyn pixel by pixel -/

theorem lit_drawSprite_of_covers {x y : Reg} {n : RowCount} {s : State} {p : Pixel} (h : SpriteCovers s x y n p) :
    Display.lit (drawSprite x y n s).disp p = !Display.lit s.disp p :=
  (lit_drawPixels (nodup_drawTargets x y n s) s.disp false p).trans (if_pos (mem_drawTargets.2 h))

theorem lit_drawSprite_of_not_covers {x y : Reg} {n : RowCount} {s : State} {p : Pixel}
    (h : ¬ SpriteCovers s x y n p) : Display.lit (drawSprite x y n s).disp p = Display.lit s.disp p :=
  (lit_drawPixels (nodup_drawTargets x y n s) s.disp false p).trans (if_neg (mt mem_drawTargets.1 h))

theorem flagByte_eq_one_iff (c : Bool) : flagByte c = 1 ↔ c = true := by
  cases c <;> decide

/-- VF reports exactly that a covered pixel was lit. -/
theorem readV_VF_drawSprite_eq_one_iff (x y : Reg) (n : RowCount) (s : State) :
    (drawSprite x y n s).readV VF = 1 ↔ ∃ p, SpriteCovers s x y n p ∧ Display.lit s.disp p = true := by
  have hcoll := drawPixels_collision (nodup_drawTargets x y n s) s.disp false
  simp only [mem_drawTargets, Bool.false_eq_true, false_or] at hcoll
  rw [drawSprite, State.readV_writeV_self, flagByte_eq_one_iff]
  exact hcoll

theorem readV_VF_drawSprite_eq_zero (x y : Reg) (n : RowCount) (s : State)
    (h : ∀ p, SpriteCovers s x y n p → Display.lit s.disp p = false) : (drawSprite x y n s).readV VF = 0 := by
  have hne : (drawSprite x y n s).readV VF ≠ 1 := by
    rw [ne_eq, readV_VF_drawSprite_eq_one_iff]
    rintro ⟨p, hp, hlit⟩
    rw [h p hp] at hlit
    cases hlit
  rw [drawSprite, State.readV_writeV_self] at hne ⊢
  exact (flagByte_eq_zero_or_one _).resolve_right hne

theorem blockInRange_of_sprite {s : State} {n : RowCount} (h : SpriteInRange s n) : BlockInRange s n.val :=
  h.imp_left (congrArg Fin.val)

/-- Settles O49: the fetch advance changes nothing the sprite reads. -/
theorem drawTogglesSpritePixels : Obligations.DrawTogglesSpritePixels := by
  intro x y n s hrange
  have hexec := exec_drw_of_inRange x y (blockInRange_of_sprite hrange)
  refine ⟨_, hexec, fun p hp => lit_drawSprite_of_covers (s := s.advancePc) hp,
    fun p hp => lit_drawSprite_of_not_covers (s := s.advancePc) hp,
    (readV_VF_drawSprite_eq_one_iff x y n s.advancePc).2, readV_VF_drawSprite_eq_zero x y n s.advancePc, rfl,
    exec_frame hexec rfl⟩

/-- A set bit of the sprite exists exactly when some row of it is not zero. -/
theorem exists_spriteCovers_iff (x y : Reg) (n : RowCount) (s : State) :
    (∃ p, SpriteCovers s x y n p) ↔ ∃ r < n.val, Memory.read s.mem (s.base + r) ≠ 0 := by
  constructor
  · rintro ⟨p, r, col, hr, -, hbit, -⟩
    refine ⟨r, hr, fun h => ?_⟩
    rw [h] at hbit
    simp at hbit
  · rintro ⟨r, hr, hne⟩
    obtain ⟨k, hk, hbit⟩ : ∃ k, k < 8 ∧ (Memory.read s.mem (s.base + r)).getLsbD k = true := by
      by_contra hno
      refine hne (BitVec.eq_of_getLsbD_eq fun k hk => ?_)
      simpa using fun h => hno ⟨k, hk, h⟩
    refine ⟨wrapPixel ((s.readV x).toNat + (7 - k)) ((s.readV y).toNat + r), r, 7 - k, hr, by omega, ?_, rfl, rfl⟩
    rwa [show 7 - (7 - k) = k by omega]

/-- The second of two equal draws reads the sprite and the coordinates of the first. -/
theorem spriteCovers_drawSprite {x y : Reg} (hx : x ≠ VF) (hy : y ≠ VF) (n : RowCount) (s : State) (p : Pixel) :
    SpriteCovers (drawSprite x y n s) x y n p ↔ SpriteCovers s x y n p := by
  have hvx : (drawSprite x y n s).readV x = s.readV x := State.readV_writeV_ne _ _ _ _ hx
  have hvy : (drawSprite x y n s).readV y = s.readV y := State.readV_writeV_ne _ _ _ _ hy
  rw [SpriteCovers, hvx, hvy]
  rfl

/-- What the first draw toggled, the second toggles back. -/
theorem lit_drawSprite_twice {x y : Reg} (hx : x ≠ VF) (hy : y ≠ VF) (n : RowCount) (s : State) (p : Pixel) :
    Display.lit (drawSprite x y n (drawSprite x y n s)).disp p = Display.lit s.disp p := by
  by_cases hp : SpriteCovers s x y n p
  · rw [lit_drawSprite_of_covers ((spriteCovers_drawSprite hx hy n s p).2 hp), lit_drawSprite_of_covers hp,
      Bool.not_not]
  · rw [lit_drawSprite_of_not_covers (mt (spriteCovers_drawSprite hx hy n s p).1 hp), lit_drawSprite_of_not_covers hp]

/-- The second draw collides with the pixels that the first one lit. -/
theorem readV_VF_drawSprite_twice_eq_one_iff {x y : Reg} (hx : x ≠ VF) (hy : y ≠ VF) (n : RowCount) (s : State) :
    (drawSprite x y n (drawSprite x y n s)).readV VF = 1 ↔
      ∃ p, SpriteCovers s x y n p ∧ Display.lit s.disp p = false := by
  rw [readV_VF_drawSprite_eq_one_iff]
  refine exists_congr fun p => ?_
  rw [spriteCovers_drawSprite hx hy]
  refine and_congr_right fun hp => ?_
  rw [lit_drawSprite_of_covers hp, Bool.not_eq_true']

/-- Settles O51: the fetch advances of both ticks change nothing a draw reads. -/
theorem drawTwiceRestoresDisplay : Obligations.DrawTwiceRestoresDisplay := by
  intro x y n s hx hy hrange
  have hb := blockInRange_of_sprite hrange
  have hvf := readV_VF_drawSprite_twice_eq_one_iff hx hy n s.advancePc
  refine ⟨_, _, exec_drw_of_inRange x y hb, exec_drw_of_inRange (s := drawSprite x y n s.advancePc) x y hb,
    lit_drawSprite_twice hx hy n s.advancePc, hvf, fun hdark => hvf.trans ?_⟩
  exact (exists_congr fun p => and_iff_left (hdark p)).trans (exists_spriteCovers_iff x y n s)

end Sys2Proof.Machine
end
